-- ==== Sys2Proof/Word.lean ====
section
/-! DEFINITION. The word types of the unit: byte, nibble, register word, tile, record.
Spec: 00_scope.md R7, R8, R9; 10_state.md R14, R17, R18; 30_encoding.md R44. -/

namespace Sys2Proof

/-- A byte, bit 0 the least significant (R8): a cell of SRC and a cell of the canvas (R18, R32). -/
abbrev Byte := BitVec 8

/-- A tile pixel, a palette index of 4 bits (INDEX_W of R7), and a nibble of a byte. -/
abbrev Nibble := BitVec 4

/-- A register, 32 bits wide (R14), and a SRC address (ADDR_W of R7). -/
abbrev Word := BitVec 32

/-- A tile: 64 pixels in linear order (R17, R60). -/
abbrev Tile := Vector Nibble 64

/-- A record: five bytes, byte `k` at index `k` (R44). -/
abbrev Record := Vector Byte 5

/-- The 32 bytes a tile is decoded from (R60). -/
abbrev TileBytes := Vector Byte 32

/-- A tile whose pixels are all 0, transparent (R17). -/
def blankTile : Tile := Vector.replicate 64 0#4

end Sys2Proof
end

