-- ==== Sys2Proof/Config.lean ====
section
/-! DEFINITION. What is fixed for the unit: the constants of 00_scope.md R7, and the two values
that a reset state names for the instance parameters the spec leaves open.

SRC_LEN and TILE_CAP are OPEN in R7 ("model argument"): they are fields of State (`srcLen`, `tileCap`),
so that every statement over states holds for every value of them (log 2, log 3). SHAPE_TABLE, the
third configuration field of R7, is `Sys2Proof.Config.shapeTable`, in Machine/Operands.lean. -/

namespace Sys2Proof
namespace Config

/-- TILE_BYTES of R7. -/
abbrev tileBytes : Nat := 32

/-- OAM_BYTES of R7. -/
abbrev oamBytes : Nat := 5

/-- END_MARK of R7. -/
abbrev endMark : Byte := 0xFF#8

/-- CANVAS_W of R7. -/
abbrev canvasWidth : Nat := 512

/-- CANVAS_H of R7. -/
abbrev canvasHeight : Nat := 512

/-- ORIGIN_X of R7, the canvas column of the pivot. -/
abbrev originX : Int := 256

/-- ORIGIN_Y of R7, the canvas row of the pivot. -/
abbrev originY : Int := 256

/-- BANK_STRIDE of R7. -/
abbrev bankStride : Byte := 16#8

/-- DESIGN CHOICE (log 2, unsafe): SRC_LEN of the reset state, the largest R7 allows. -/
abbrev resetSrcLen : Word := 0xFFFFFFFF#32

/-- DESIGN CHOICE (log 3, unsafe): TILE_CAP of the reset state, the 318 slots that R17 calls enough
for every reference and that the programs of 95_test_vectors.md Part 8 assume. -/
abbrev resetTileCap : Nat := 318

end Config
end Sys2Proof
end

