-- ==== Sys2Proof/Syntax.lean ====
section
/-! DEFINITION. The instructions: one constructor per row of spec/opcode_table.json.
The record is the unit's instruction (30_encoding.md R44); the two command codes are the host's
(30_encoding.md R56). -/

namespace Sys2Proof

/-- The operands of an OBJ record that are the same for every form (30_encoding.md R45): every one
is an immediate field of the record (10_state.md R13). -/
structure ObjFields where
  /-- Tile index, byte 0: the slot of the object's first tile, 0 to 254 (255 is END). -/
  ti : Byte
  /-- Column offset from the pivot, byte 1, read as two's complement (R47). -/
  x : Byte
  /-- Row offset from the pivot, byte 2, read as two's complement (R47). -/
  y : Byte
  /-- Horizontal flip, byte 3 bit 6 (R46). -/
  hf : Bool
  /-- Vertical flip, byte 3 bit 7 (R46). -/
  vf : Bool
  /-- Palette bank offset, byte 4 bits 7:4 (R50). -/
  pb : Nibble
deriving DecidableEq, Repr

/-- One constructor per row of the opcode table. Bits 5:4 of byte 3 and bytes 1 to 4 of END are no
operands: they are ignored (R48, R53). -/
inductive Instr where
  /-- END: the sentinel that ends a list (41_oam_entry.md R71). -/
  | endList
  /-- OBJ.SQ0, (sz, sh) = (0, 0) (R73). -/
  | objSq0 (o : ObjFields)
  /-- OBJ.SQ1, (sz, sh) = (1, 0) (R73). -/
  | objSq1 (o : ObjFields)
  /-- OBJ.SQ2, (sz, sh) = (2, 0) (R73). -/
  | objSq2 (o : ObjFields)
  /-- OBJ.SQ3, (sz, sh) = (3, 0) (R73). -/
  | objSq3 (o : ObjFields)
  /-- OBJ.WD0, (sz, sh) = (0, 1) (R74). -/
  | objWd0 (o : ObjFields)
  /-- OBJ.WD1, (sz, sh) = (1, 1) (R74). -/
  | objWd1 (o : ObjFields)
  /-- OBJ.WD2, (sz, sh) = (2, 1) (R74). -/
  | objWd2 (o : ObjFields)
  /-- OBJ.WD3, (sz, sh) = (3, 1) (R74). -/
  | objWd3 (o : ObjFields)
  /-- OBJ.TL0, (sz, sh) = (0, 2) (R75). -/
  | objTl0 (o : ObjFields)
  /-- OBJ.TL1, (sz, sh) = (1, 2) (R75). -/
  | objTl1 (o : ObjFields)
  /-- OBJ.TL2, (sz, sh) = (2, 2) (R75). -/
  | objTl2 (o : ObjFields)
  /-- OBJ.TL3, (sz, sh) = (3, 2) (R75). -/
  | objTl3 (o : ObjFields)
  /-- OBJ.NULL: any other (sz, sh), the shape miss (R76). -/
  | objNull (o : ObjFields) (sz sh : Nibble)
  /-- TLOAD, CMD code 1 (40_tile_decode.md R64). -/
  | tload
  /-- RUN, CMD code 2 (42_sprite_compositor.md R82). -/
  | run
deriving DecidableEq, Repr

/-- What carries an instruction: a record of the OAM list (format OAM5 of the opcode table), or the
32-bit value written to CMD (format CMD). The two never meet: a record is fetched from SRC, a
command is a host move (30_encoding.md, opening). -/
inductive Encoding where
  | oam5 (rec : Record)
  | cmd (code : Word)
deriving DecidableEq, Repr

end Sys2Proof
end

