-- ==== Sys2Proof/WellFormed.lean ====
section
/-! DEFINITION. Which instructions are written correctly: a tile index is never 0xFF (30_encoding.md
R45, R53), and OBJ.NULL's (size class, shape modifier) is not one of the 12 keys of the shape table
(R52). Every other operand value is legal. -/

namespace Sys2Proof

/-- The tile index is 0 to 254: 0xFF is END (R45, R53). -/
abbrev ObjFields.WellFormed (o : ObjFields) : Prop := o.ti ≠ 0xFF#8

/-- (sz, sh) is one of the 12 keys of the shape table: sz 0 to 3 and sh 0 to 2 (R49, R51). -/
abbrev isShapeKey (sz sh : Nibble) : Prop := sz.toNat ≤ 3 ∧ sh.toNat ≤ 2

/-- The check, one arm per constructor. -/
def Instr.wellFormed (i : Instr) : Bool :=
  match i with
  | .endList => true
  | .objSq0 o | .objSq1 o | .objSq2 o | .objSq3 o => decide o.WellFormed
  | .objWd0 o | .objWd1 o | .objWd2 o | .objWd3 o => decide o.WellFormed
  | .objTl0 o | .objTl1 o | .objTl2 o | .objTl3 o => decide o.WellFormed
  | .objNull o sz sh => decide (o.WellFormed ∧ ¬ isShapeKey sz sh)
  | .tload => true
  | .run => true

/-- The check as a proposition. -/
abbrev Instr.WellFormed (i : Instr) : Prop := i.wellFormed = true

end Sys2Proof
end

