-- ==== Sys2Proof/Decode.lean ====
section
/-! DEFINITION. Decoding and encoding of records and command codes, the opcode table, and the
assembler. Spec: 30_encoding.md R44 to R59, 41_oam_entry.md R69 to R76, 90_conflicts.md C1. -/

namespace Sys2Proof

/-! ## Bit fields of a byte -/

/-- The low nibble `b[3:0]` (R8). -/
def lowNibble (b : Byte) : Nibble := b.extractLsb' 0 4

/-- The high nibble `b[7:4]` (R8). -/
def highNibble (b : Byte) : Nibble := b.extractLsb' 4 4

/-- The byte with the given high and low nibbles, `hi ++ lo` in the notation of R8. -/
def nibblePair (hi lo : Nibble) : Byte := hi ++ lo

/-- `sext_8` of R9: the byte read as a two's-complement number, -128 to 127 (R47, log 17). -/
def sext8 (b : Byte) : Int := b.toInt

/-! ## The record -/

/-- Size class: the whole low nibble of byte 3 (R49). -/
def sizeClass (r : Record) : Nibble := lowNibble r[3]

/-- Shape modifier: the whole low nibble of byte 4 (R49). -/
def shapeModifier (r : Record) : Nibble := lowNibble r[4]

/-- Bits 5:4 of byte 3, which the unit ignores (R48). -/
def ignoredBits (r : Record) : BitVec 2 := r[3].extractLsb' 4 2

/-- The operands of an OBJ record by their places (R45); the flip bits are bits 6 and 7 of byte 3,
the reading of conflict C1 (R46, log 14). -/
def objFields (r : Record) : ObjFields :=
  { ti := r[0]
    x := r[1]
    y := r[2]
    hf := r[3].getLsbD 6
    vf := r[3].getLsbD 7
    pb := highNibble r[4] }

/-- The OBJ form of a key of the shape table, OBJ.NULL for every other pair (R51, R52, R55). -/
def objForm (o : ObjFields) (sz sh : Nibble) : Instr :=
  match sh.toNat, sz.toNat with
  | 0, 0 => .objSq0 o
  | 0, 1 => .objSq1 o
  | 0, 2 => .objSq2 o
  | 0, 3 => .objSq3 o
  | 1, 0 => .objWd0 o
  | 1, 1 => .objWd1 o
  | 1, 2 => .objWd2 o
  | 1, 3 => .objWd3 o
  | 2, 0 => .objTl0 o
  | 2, 1 => .objTl1 o
  | 2, 2 => .objTl2 o
  | 2, 3 => .objTl3 o
  | _, _ => .objNull o sz sh

/-- Record decode: END when byte 0 is 0xFF, tested before everything else (R53), an OBJ otherwise
(R72). Total on all 40-bit patterns (R54). -/
def decodeRecord (r : Record) : Instr :=
  if r[0] = Config.endMark then .endList
  else objForm (objFields r) (sizeClass r) (shapeModifier r)

/-! ## Command codes -/

/-- Why a decoder refuses: the only thing that can be refused is a command code, since record decode
is total (R54). The CMD dispatch turns it into the fault ILLEGAL_CMD (R107). -/
inductive Reject where
  /-- The value written to CMD is neither 1 nor 2 (R56). -/
  | illegalCommand (code : Word)
deriving DecidableEq, Repr

/-- The command code, compared as a whole 32-bit word (R56). -/
def decodeCommand (c : Word) : Except Reject Instr :=
  if c = 1#32 then .ok .tload
  else if c = 2#32 then .ok .run
  else .error (.illegalCommand c)

/-- The decoder, total on records and on command values. -/
def decode (e : Encoding) : Except Reject Instr :=
  match e with
  | .oam5 r => .ok (decodeRecord r)
  | .cmd c => decodeCommand c

/-! ## The opcode table's numbering -/

/-- The record as the table's 40-bit word, byte 0 in bits 7:0 (R55). -/
def recordWord (r : Record) : BitVec 40 := r[4] ++ r[3] ++ r[2] ++ r[1] ++ r[0]

/-- The five bytes of the table's 40-bit word, the first at the lowest address (R55). -/
def recordOfNat (w : Nat) : Record :=
  #v[BitVec.ofNat 8 w, BitVec.ofNat 8 (w / 2 ^ 8), BitVec.ofNat 8 (w / 2 ^ 16),
     BitVec.ofNat 8 (w / 2 ^ 24), BitVec.ofNat 8 (w / 2 ^ 32)]

/-- What a table row of `nbits` bits stands for: 32 bits is a value written to CMD (format CMD),
any other width up to 40 is a record (format OAM5), its bits above `nbits` being 0 (log 23). -/
def tableEncoding (nbits w : Nat) : Option Encoding :=
  if nbits = 32 then some (.cmd (BitVec.ofNat 32 w))
  else if nbits ≤ 40 then some (.oam5 (recordOfNat w))
  else none

/-- The instruction the decoder reads from a word numbered as the opcode table numbers it. -/
def decodeTableWord (nbits w : Nat) : Option Instr :=
  match tableEncoding nbits w with
  | none => none
  | some e =>
    match decode e with
    | .ok i => some i
    | .error _ => none

/-! ## The encoder -/

/-- Byte 3: vertical flip, horizontal flip, two ignored bits written 0, size class (R45, R48). -/
def flipSizeByte (hf vf : Bool) (sz : Nibble) : Byte :=
  BitVec.ofBool vf ++ BitVec.ofBool hf ++ 0#2 ++ sz

/-- The five bytes of an OBJ with the given size class and shape modifier (R45, R58). -/
def encodeObj (o : ObjFields) (sz sh : Nibble) : Record :=
  #v[o.ti, o.x, o.y, flipSizeByte o.hf o.vf sz, nibblePair o.pb sh]

/-- END as the assembler writes it: `FF 00 00 00 00` (R58). -/
def encodeEnd : Record := #v[0xFF#8, 0#8, 0#8, 0#8, 0#8]

/-- The words of an instruction. -/
def encode (i : Instr) : Encoding :=
  match i with
  | .endList => .oam5 encodeEnd
  | .objSq0 o => .oam5 (encodeObj o 0#4 0#4)
  | .objSq1 o => .oam5 (encodeObj o 1#4 0#4)
  | .objSq2 o => .oam5 (encodeObj o 2#4 0#4)
  | .objSq3 o => .oam5 (encodeObj o 3#4 0#4)
  | .objWd0 o => .oam5 (encodeObj o 0#4 1#4)
  | .objWd1 o => .oam5 (encodeObj o 1#4 1#4)
  | .objWd2 o => .oam5 (encodeObj o 2#4 1#4)
  | .objWd3 o => .oam5 (encodeObj o 3#4 1#4)
  | .objTl0 o => .oam5 (encodeObj o 0#4 2#4)
  | .objTl1 o => .oam5 (encodeObj o 1#4 2#4)
  | .objTl2 o => .oam5 (encodeObj o 2#4 2#4)
  | .objTl3 o => .oam5 (encodeObj o 3#4 2#4)
  | .objNull o sz sh => .oam5 (encodeObj o sz sh)
  | .tload => .cmd 1#32
  | .run => .cmd 2#32

/-! ## The opcode table (R55, R56)

A row matches a word `w` when `w &&& mask = pattern`; rows are tried in ascending priority. -/

/-- A row of the record part of the table. -/
structure RecordRow where
  mnemonic : String
  priority : Nat
  mask : BitVec 40
  pattern : BitVec 40
deriving DecidableEq, Repr

/-- Row of a key of the shape table: mask 0x0F0F000000, pattern `sh × 2^32 + sz × 2^24` (R55). -/
def keyRow (mnemonic : String) (sz sh : Nat) : RecordRow :=
  ⟨mnemonic, 1, 0x0F0F000000#40, BitVec.ofNat 40 (sh * 2 ^ 32 + sz * 2 ^ 24)⟩

/-- The record rows in ascending priority (R55). -/
def recordTable : List RecordRow :=
  [⟨"END", 0, 0x00000000FF#40, 0x00000000FF#40⟩,
   keyRow "OBJ.SQ0" 0 0, keyRow "OBJ.SQ1" 1 0, keyRow "OBJ.SQ2" 2 0, keyRow "OBJ.SQ3" 3 0,
   keyRow "OBJ.WD0" 0 1, keyRow "OBJ.WD1" 1 1, keyRow "OBJ.WD2" 2 1, keyRow "OBJ.WD3" 3 1,
   keyRow "OBJ.TL0" 0 2, keyRow "OBJ.TL1" 1 2, keyRow "OBJ.TL2" 2 2, keyRow "OBJ.TL3" 3 2,
   ⟨"OBJ.NULL", 2, 0#40, 0#40⟩]

/-- The table's mnemonic of an instruction. -/
def mnemonicOf (i : Instr) : String :=
  match i with
  | .endList => "END"
  | .objSq0 _ => "OBJ.SQ0"
  | .objSq1 _ => "OBJ.SQ1"
  | .objSq2 _ => "OBJ.SQ2"
  | .objSq3 _ => "OBJ.SQ3"
  | .objWd0 _ => "OBJ.WD0"
  | .objWd1 _ => "OBJ.WD1"
  | .objWd2 _ => "OBJ.WD2"
  | .objWd3 _ => "OBJ.WD3"
  | .objTl0 _ => "OBJ.TL0"
  | .objTl1 _ => "OBJ.TL1"
  | .objTl2 _ => "OBJ.TL2"
  | .objTl3 _ => "OBJ.TL3"
  | .objNull _ _ _ => "OBJ.NULL"
  | .tload => "TLOAD"
  | .run => "RUN"

/-- The mnemonic the table gives a record: of the first row that matches its word (R55). -/
def tableLookup (r : Record) : Option String :=
  (recordTable.find? fun row => recordWord r &&& row.mask == row.pattern).map (·.mnemonic)

/-! ## The assembler (R58, R59)

Statements as abstract syntax (log 24): the text form (comments, numerals, line ends) is not read. -/

/-- A statement of R58 and R59. -/
inductive Stmt where
  /-- `OBJ ti, x, y, sz, sh, pb [, H] [, V]` -/
  | obj (ti : Nat) (x y : Int) (sz sh pb : Nat) (h v : Bool)
  /-- `END` -/
  | endList
  /-- `.org a` -/
  | org (a : Nat)
  /-- `.byte b, b, ...` -/
  | bytes (bs : List Byte)
deriving DecidableEq, Repr

/-- The operand ranges of `OBJ` (R58); the assembler refuses anything else, `ti = 255` included. -/
abbrev objOperandsInRange (ti : Nat) (x y : Int) (sz sh pb : Nat) : Prop :=
  ti ≤ 254 ∧ (-128 ≤ x ∧ x ≤ 127) ∧ (-128 ≤ y ∧ y ≤ 127) ∧ sz ≤ 15 ∧ sh ≤ 15 ∧ pb ≤ 15

/-- `OBJ` assembles to `ti`, `x mod 256`, `y mod 256`, `vf × 128 + hf × 64 + sz`, `pb × 16 + sh`,
nothing for operands out of range (R58). -/
def assembleObj (ti : Nat) (x y : Int) (sz sh pb : Nat) (h v : Bool) : Option Record :=
  if objOperandsInRange ti x y sz sh pb then
    some #v[BitVec.ofNat 8 ti, BitVec.ofInt 8 x, BitVec.ofInt 8 y,
      BitVec.ofNat 8 ((if v then 128 else 0) + (if h then 64 else 0) + sz),
      BitVec.ofNat 8 (pb * 16 + sh)]
  else none

/-- The bytes one statement emits (R58, R59). -/
def assembleStmt (st : Stmt) : Option (List Byte) :=
  match st with
  | .obj ti x y sz sh pb h v => (assembleObj ti x y sz sh pb h v).map (·.toList)
  | .endList => some encodeEnd.toList
  | .org _ => some []
  | .bytes bs => some bs

/-- The (address, byte) pairs a program places in SRC, starting at address `a`; `.org` sets the
address of what follows (R59). Nothing where a statement is refused. -/
def assemble (a : Nat) : List Stmt → Option (List (Nat × Byte))
  | [] => some []
  | .org b :: rest => assemble b rest
  | st :: rest =>
    match assembleStmt st with
    | none => none
    | some bs => (assemble (a + bs.length) rest).map fun tail => bs.mapIdx (fun k b => (a + k, b)) ++ tail

/-- The disassembler (R58): END whatever bytes 1 to 4 hold; beside an OBJ the ignored bits of
byte 3, which it prints as a comment when set. -/
def disassemble (r : Record) : Stmt × BitVec 2 :=
  if r[0] = Config.endMark then (.endList, 0#2)
  else
    let o := objFields r
    (.obj o.ti.toNat (sext8 o.x) (sext8 o.y) (sizeClass r).toNat (shapeModifier r).toNat
      o.pb.toNat o.hf o.vf, ignoredBits r)

end Sys2Proof
end

