-- ==== Sys2Proof/Machine/State.lean ====
section
/-! DEFINITION. The state as plain data, its reset value, and the reasons a step can stop.
Spec: 10_state.md R13 to R31, 43_host_commands.md R101 to R110, 60_exceptions.md R113. -/

namespace Sys2Proof
namespace Machine

/-! ## Memories -/

/-- A memory: (key, value) pairs, keys strictly rising, no pair equal to what an unlisted key reads as. -/
abbrev Mem (α : Type) := List (Nat × α)

/-- A memory of bytes: SRC and the canvas. -/
abbrev Memory := List Host.Cell

/-- The canonical form of a memory whose unlisted keys read as `d`. -/
abbrev Mem.wf {α : Type} (d : α) (m : Mem α) : Prop :=
  m.Pairwise (fun p q => p.1 < q.1) ∧ ∀ c ∈ m, c.2 ≠ d

/-- The canonical form of a byte memory: an unlisted byte reads as 0. For the canvas that is the
value reset and RUN give every cell (R31, R82); for SRC it is only how the host's list of bytes is
written down (log 1). -/
abbrev Memory.wf (m : Memory) : Prop := Mem.wf 0#8 m

/-! ## STATUS (R20) -/

/-- STATUS.STATE. -/
inductive UnitState where
  /-- 0: waiting for the host. -/
  | idle
  /-- 1: busy loading tiles. -/
  | tload
  /-- 2: busy compositing. -/
  | run
  /-- 3: stopped by a fault, left only by reset (R118). -/
  | fault
deriving DecidableEq, Repr

/-- STATUS.CAUSE; 6 to 15 never occur (R20, R113). -/
inductive Cause where
  /-- 0: no fault. -/
  | none
  /-- 1: a tile not wholly inside SRC (R65). -/
  | shortReadTile
  /-- 2: a record not wholly inside SRC (R70). -/
  | shortReadOam
  /-- 3: a tile reference beyond the tile list (R86). -/
  | tileRange
  /-- 4: a tile region larger than the tile store (R64). -/
  | tileCap
  /-- 5: a command code that is neither 1 nor 2 (R107). -/
  | illegalCmd
deriving DecidableEq, Repr

/-- STATUS.FOP, the operation in which the fault arose. -/
inductive FaultOp where
  /-- 0: no fault. -/
  | none
  /-- 1: TLOAD. -/
  | tload
  /-- 2: RUN. -/
  | run
  /-- 3: command dispatch. -/
  | dispatch
deriving DecidableEq, Repr

/-! ## The host's side (43_host_commands.md) -/

/-- The registers by name (R14). -/
inductive Reg where
  | cmd
  | status
  | tsrc
  | tlen
  | osrc
  | nt
  | opc
  | nent
  | faddr
deriving DecidableEq, Repr

/-- A move of the host (R101). -/
inductive Move where
  /-- Register read (R102). -/
  | readReg (number : Nat)
  /-- Register write (R103); a write to register 0 is the CMD write (R104). -/
  | writeReg (number : Nat) (value : Word)
  /-- Tile port read of pixel `p` of slot `n` (R109). -/
  | readTile (n p : Nat)
  /-- Canvas port read of row `r`, column `c` (R109). -/
  | readCanvas (r c : Nat)
  /-- Change of SRC: the bytes from address `a` on (R43, R110). -/
  | changeSrc (a : Nat) (bytes : List Byte)
  /-- Reset (70_reset_and_hazards.md R125). -/
  | reset
deriving DecidableEq, Repr

/-- Who acts next: the interleaving of host and unit as plain data (log 6). -/
inductive Turn where
  /-- The host makes a move. -/
  | move (m : Move)
  /-- The unit takes its next step, or waits if it has none to take. -/
  | unit
  /-- The host waits until the unit is no longer busy (polling of STATUS, R110, R122). -/
  | await
deriving DecidableEq, Repr

/-- What a host read returns (R102, R109). -/
inductive Reply where
  | reg (value : Word)
  | tile (value : Nibble)
  | canvas (value : Byte)
deriving DecidableEq, Repr

/-! ## The state -/

/-- The unit, its source byte space, and the host's turns. -/
structure State where
  /-- STATUS.STATE (R20). -/
  st : UnitState
  /-- STATUS.CAUSE (R20). -/
  cause : Cause
  /-- STATUS.FOP (R20). -/
  fop : FaultOp
  /-- TSRC, register 2 (R22). -/
  tsrc : Word
  /-- TLEN, register 3 (R23). -/
  tlen : Word
  /-- OSRC, register 4 (R24). -/
  osrc : Word
  /-- NT, register 5 (R25). -/
  nt : Word
  /-- OPC, register 6, the program counter (R15). -/
  opc : Word
  /-- NENT, register 7 (R26). -/
  nent : Word
  /-- FADDR, register 8 (R27). -/
  faddr : Word
  /-- The tile store, by slot (R17); a slot at or above NT is never read (log 5). -/
  tiles : Mem Tile
  /-- The canvas, cell (r, c) at key 512 × r + c (R18). -/
  canvas : Memory
  /-- SRC, the source byte space (R28, log 1). -/
  src : Memory
  /-- SRC_LEN, a parameter (R7, log 2). -/
  srcLen : Word
  /-- TILE_CAP, a parameter (R7, log 3). -/
  tileCap : Nat
  /-- The model's own field: the turns still to come (log 6). -/
  script : List Turn
  /-- The model's own field: what the host has read, newest first (log 6). -/
  replies : List Reply
deriving DecidableEq, Repr

/-- The machine right after reset (R31, R126). The fields SRC, SRC_LEN and TILE_CAP are not the
unit's state; their values here are DESIGN CHOICEs (logs 2, 3, 4). -/
def State.reset : State where
  st := .idle
  cause := .none
  fop := .none
  tsrc := 0#32
  tlen := 0#32
  osrc := 0#32
  nt := 0#32
  opc := 0#32
  nent := 0#32
  faddr := 0#32
  tiles := []
  canvas := []
  src := []
  srcLen := Config.resetSrcLen
  tileCap := Config.resetTileCap
  script := []
  replies := []

/-! ## How a step can stop -/

/-- A step never stops with a fault of the model: every fault of the spec (R113) is an entry into
STATE = FAULT, a next state (log 12). -/
inductive Fault
deriving DecidableEq, Repr

/-- Moves and instructions the spec gives no meaning. -/
inductive Refusal where
  /-- An instruction without a meaning yet: raised by no arm of exec. Safe. -/
  | notModelled (mnemonic : String)
  /-- A host move other than a STATUS read or a reset while STATE is TLOAD or RUN: raised by the
  host's moves and by the CMD commands (R110, 93 U5, U8). Safe: the spec gives it no meaning. -/
  | hostMoveWhileBusy
  /-- A register number above 8: raised by register reads and writes (R14, 93 U6). Safe. -/
  | noSuchRegister (number : Nat)
  /-- Tile port read with n ≥ NT or p ≥ 64 (R109, 93 U6). Safe. -/
  | tilePortRange (n p : Nat)
  /-- Canvas port read with r ≥ 512 or c ≥ 512 (R109, 93 U6). Safe. -/
  | canvasPortRange (r c : Nat)
  /-- A change of a byte outside SRC, which does not exist (R32, log 10). Safe. -/
  | srcRange (a : Nat)
  /-- A record handed to exec while STATE is not RUN: no step does that; the spec executes a record
  only in RUN (R96, log 11). Safe. -/
  | recordOutsideRun
deriving DecidableEq, Repr

end Machine
end Sys2Proof
end

