-- ==== Sys2Proof/Machine/Ops.lean ====
section
/-! DEFINITION. The named operations over memory and registers: reading and writing a memory in its
canonical form, MemRead of SRC, the fault entry, reset, the cursor's advance, the acceptance of a
command, and how an instruction is put where the next step takes it.
Spec: 00_scope.md R9, 20_memory.md R33, 60_exceptions.md R113, R116, 70_reset_and_hazards.md R126. -/

namespace Sys2Proof
namespace Machine

/-! ## Memories -/

/-- The value at key `a`; `d` for an unlisted key. -/
def Mem.read {α : Type} (d : α) (m : Mem α) (a : Nat) : α :=
  match m with
  | [] => d
  | (k, v) :: rest => if k = a then v else Mem.read d rest a

/-- Writing `v` at key `a`, keeping the canonical form: writing what an unlisted key reads as removes
the entry. -/
def Mem.write {α : Type} [DecidableEq α] (d : α) (m : Mem α) (a : Nat) (v : α) : Mem α :=
  match m with
  | [] => if v = d then [] else [(a, v)]
  | (k, x) :: rest =>
    if k < a then (k, x) :: Mem.write d rest a v
    else
      let tail := if k = a then rest else (k, x) :: rest
      if v = d then tail else (a, v) :: tail

/-- The bytes `bs` written at `a, a + 1, …`. -/
def Mem.writeBytes (m : Memory) (a : Nat) (bs : List Byte) : Memory :=
  match bs with
  | [] => m
  | b :: rest => Mem.writeBytes (Mem.write 0#8 m a b) (a + 1) rest

/-- The pairs of `new` laid over `old`, both in rising key order: the write set of a record applied
to the canvas at once (R40, R93). A key listed in `new` takes its value, every other key keeps the
old one. -/
def Mem.overlay {α : Type} (new old : Mem α) : Mem α :=
  match new with
  | [] => old
  | (a, v) :: rest =>
    old.takeWhile (fun c => decide (c.1 < a)) ++
      (a, v) :: Mem.overlay rest (old.dropWhile (fun c => decide (c.1 ≤ a)))

/-! ## SRC -/

/-- `SRC[a]`. -/
def State.srcByte (s : State) (a : Nat) : Byte := Mem.read 0#8 s.src a

/-- `MemRead(a, n)`: defined exactly when `a + n ≤ SRC_LEN`, the sum on unbounded integers (R33). -/
def State.memRead (s : State) (a n : Nat) : Option (Vector Byte n) :=
  if a + n ≤ s.srcLen.toNat then some (Vector.ofFn fun i => s.srcByte (a + i.val)) else none

/-! ## Fault entry and reset -/

/-- FOP as the fault entry writes it: 1 if STATE = TLOAD or the fault is TILE_CAP, 2 if STATE = RUN,
3 for ILLEGAL_CMD (R116), the only cause left, since it is raised in IDLE alone (R113). -/
def faultOp (u : UnitState) (c : Cause) : FaultOp :=
  if u = .tload ∨ c = .tileCap then .tload
  else if u = .run then .run
  else .dispatch

/-- `raise <Cause>(addr)`, the fault entry (R116): CAUSE, FOP, FADDR and STATE are written, nothing
else; no state is saved and control goes nowhere. -/
def State.raise (s : State) (c : Cause) (addr : Word) : State :=
  { s with cause := c, fop := faultOp s.st c, faddr := addr, st := .fault }

/-- Reset (R126), the only way out of FAULT (R118): all state of the unit takes its value of R31;
SRC and the parameters are not touched (R128), nor is the host's side of the model. -/
def State.resetUnit (s : State) : State :=
  { State.reset with
    src := s.src
    srcLen := s.srcLen
    tileCap := s.tileCap
    script := s.script
    replies := s.replies }

/-! ## Registers -/

/-- STATE is TLOAD or RUN. -/
def State.busy (s : State) : Bool :=
  match s.st with
  | .idle => false
  | .tload => true
  | .run => true
  | .fault => false

/-- The cursor past the record just executed, `OPC <- OPC + 5` (R15). -/
def State.advance (s : State) : State := { s with opc := s.opc + 5#32 }

/-- The register with a number; none above 8 (R14). -/
def regOfNumber (n : Nat) : Option Reg :=
  match n with
  | 0 => some .cmd
  | 1 => some .status
  | 2 => some .tsrc
  | 3 => some .tlen
  | 4 => some .osrc
  | 5 => some .nt
  | 6 => some .opc
  | 7 => some .nent
  | 8 => some .faddr
  | _ => none

/-- A command by the state it meets (R104, R110): accepted in IDLE, ignored in FAULT, refused while
the unit is busy. `accepted` is the state acceptance leaves. -/
def State.command (s accepted : State) : Host.Outcome State Fault Refusal :=
  match s.st with
  | .idle => .next accepted
  | .fault => .next s
  | .tload => .refused .hostMoveWhileBusy
  | .run => .refused .hostMoveWhileBusy

/-- `count = TLEN div 32`, the number of tiles of the region (R64). -/
def State.tileCount (s : State) : Nat := s.tlen.toNat / 32

/-! ## Placing an instruction where the next step takes it (log 22) -/

/-- The record in SRC at OPC, STATE = RUN, and the unit's turn next. -/
def State.placeRecord (s : State) (r : Record) : State :=
  { s with
    src := Mem.writeBytes s.src s.opc.toNat r.toList
    srcLen := if s.opc.toNat + 5 ≤ s.srcLen.toNat then s.srcLen else s.opc + 5#32
    st := .run
    cause := .none
    fop := .none
    script := .unit :: s.script }

/-- The CMD write as the host's next move, in IDLE. -/
def State.placeCommand (s : State) (c : Word) : State :=
  { s with
    st := .idle
    cause := .none
    fop := .none
    script := .move (.writeReg 0 c) :: s.script }

end Machine
end Sys2Proof
end

