-- ==== Sys2Proof/Machine/Flags.lean ====
section
/-! DEFINITION. The STATUS word, the unit's only status bits: it has no condition codes (10_state.md
R16). Spec: 10_state.md R14, R20; 60_exceptions.md R113. -/

namespace Sys2Proof
namespace Machine

/-- STATUS[1:0] (R20). -/
def UnitState.code (u : UnitState) : Nat :=
  match u with
  | .idle => 0
  | .tload => 1
  | .run => 2
  | .fault => 3

/-- STATUS[7:4] (R20, R113). -/
def Cause.code (c : Cause) : Nat :=
  match c with
  | .none => 0
  | .shortReadTile => 1
  | .shortReadOam => 2
  | .tileRange => 3
  | .tileCap => 4
  | .illegalCmd => 5

/-- STATUS[9:8] (R20). -/
def FaultOp.code (f : FaultOp) : Nat :=
  match f with
  | .none => 0
  | .tload => 1
  | .run => 2
  | .dispatch => 3

/-- STATUS, register 1: STATE in bits 1:0, CAUSE in bits 7:4, FOP in bits 9:8, every other bit 0 (R20). -/
def State.statusWord (s : State) : Word :=
  BitVec.ofNat 32 (s.st.code + s.cause.code * 2 ^ 4 + s.fop.code * 2 ^ 8)

/-- What a register reads (R14, R102): CMD reads 0. -/
def State.readReg (s : State) (r : Reg) : Word :=
  match r with
  | .cmd => 0#32
  | .status => s.statusWord
  | .tsrc => s.tsrc
  | .tlen => s.tlen
  | .osrc => s.osrc
  | .nt => s.nt
  | .opc => s.opc
  | .nent => s.nent
  | .faddr => s.faddr

end Machine
end Sys2Proof
end

