-- ==== Sys2Proof/Machine/Operands.lean ====
section
/-! DEFINITION. The operands of an OBJ record: its size from the shape table, its tiles, its place
on the canvas. Spec: 30_encoding.md R47, R51, R52; 40_tile_decode.md R61; 42_sprite_compositor.md
R83, R86; 90_conflicts.md C2. -/

namespace Sys2Proof

/-- SHAPE_TABLE (R51), the configuration field of R7: the 12 entries as the document writes them,
(width, height) in tiles. The entries of wide size 2 and 3 are the disputed literals of conflict C2,
which stand (log 15); the table lies in this file so that a repair may mend it. -/
def Config.shapeTable (sz sh : Nibble) : Option (Nat × Nat) :=
  match sh.toNat, sz.toNat with
  | 0, 0 => some (1, 1)
  | 0, 1 => some (2, 2)
  | 0, 2 => some (4, 4)
  | 0, 3 => some (8, 8)
  | 1, 0 => some (2, 1)
  | 1, 1 => some (4, 1)
  | 1, 2 => some (8, 4)
  | 1, 3 => some (8, 2)
  | 2, 0 => some (1, 2)
  | 2, 1 => some (1, 4)
  | 2, 2 => some (2, 4)
  | 2, 3 => some (4, 8)
  | _, _ => none

namespace Machine

/-- `(wt, ht)` of a size class and shape modifier: the table's entry, (0, 0) for a shape miss
(R52, R72). -/
def shapeOf (sz sh : Nibble) : Nat × Nat := (Config.shapeTable sz sh).getD (0, 0)

/-- Linear index of the pixel at a row and a column of a tile: row-major (R61, log 16). -/
def pixelIndex (row col : Nat) : Nat := row * 8 + col

/-- `TILE[n][p]` (R9). -/
def State.tilePixel (s : State) (n p : Nat) : Nibble := (Mem.read blankTile s.tiles n)[p]?.getD 0#4

/-- The slot of the tile at tile-column `tx` and tile-row `ty` of an object `wt` tiles wide (R86). -/
def tileSlot (ti wt tx ty : Nat) : Nat := ti + ty * wt + tx

/-- The range check of R86 fails: the object is not zero-sized and reaches beyond the tile list. -/
abbrev State.tilesMissing (s : State) (o : ObjFields) (wt ht : Nat) : Prop :=
  0 < wt * ht ∧ s.nt.toNat < o.ti.toNat + wt * ht

/-- The canvas row of row `sy` of an object, `256 + y + sy` (R83). -/
def canvasRow (o : ObjFields) (sy : Nat) : Nat := (Config.originY + sext8 o.y + (sy : Int)).toNat

/-- The canvas column of column `sx` of an object, `256 + x + sx` (R83). -/
def canvasColumn (o : ObjFields) (sx : Nat) : Nat := (Config.originX + sext8 o.x + (sx : Int)).toNat

/-- The key of a cell in the canvas memory. -/
def canvasKey (r c : Nat) : Nat := Config.canvasWidth * r + c

/-- `CANVAS[r][c]` (R9). -/
def State.canvasCell (s : State) (r c : Nat) : Byte := Mem.read 0#8 s.canvas (canvasKey r c)

end Machine
end Sys2Proof
end

