-- ==== Sys2Proof/Machine/Compositor.lean ====
section
/-! DEFINITION. SC: the RUN command, the OBJ records in their 13 forms, END.
Spec: 41_oam_entry.md R71 to R76, 42_sprite_compositor.md R81 to R100. -/

namespace Sys2Proof
namespace Machine

/-! ## The object's pixels

The sub-bitmap and its flipped copy live inside one step (R29): they are functions of the object's
column `sx` and row `sy`. -/

/-- The palette bank offset (R88): 0 stays 0, transparency is decided first (R89). -/
def bias (p pb : Nibble) : Byte :=
  if p = 0#4 then 0#8 else p.setWidth 8 + Config.bankStride * pb.setWidth 8

/-- `SUB[sy][sx]` (R87). -/
def State.subPixel (s : State) (o : ObjFields) (wt sx sy : Nat) : Byte :=
  bias (s.tilePixel (tileSlot o.ti.toNat wt (sx / 8) (sy / 8)) (pixelIndex (sy % 8) (sx % 8))) o.pb

/-- An index mirrored in a range of `n` when the flip is on (R91, log 18). -/
def mirror (flip : Bool) (n i : Nat) : Nat := if flip then n - 1 - i else i

/-- `FLP[sy][sx]` (R91): the flip acts on the whole object. -/
def State.flippedPixel (s : State) (o : ObjFields) (wt ht sx sy : Nat) : Byte :=
  s.subPixel o wt (mirror o.hf (8 * wt) sx) (mirror o.vf (8 * ht) sy)

/-! ## Drawing -/

/-- The canvas cell an object's pixel writes, none where the pixel is 0 (R93). -/
def State.pixelWrite (s : State) (o : ObjFields) (wt ht sy sx : Nat) : Option Host.Cell :=
  if s.flippedPixel o wt ht sx sy = 0#8 then none
  else some (canvasKey (canvasRow o sy) (canvasColumn o sx), s.flippedPixel o wt ht sx sy)

/-- The write set of a record, row by row from the top left (R93; the order is immaterial). -/
def State.writeSet (s : State) (o : ObjFields) (wt ht : Nat) : Memory :=
  (List.range (8 * ht)).flatMap fun sy =>
    (List.range (8 * wt)).filterMap fun sx => s.pixelWrite o wt ht sy sx

/-- The canvas with the object drawn over it (R93). -/
def State.composited (s : State) (o : ObjFields) (wt ht : Nat) : Memory :=
  Mem.overlay (s.writeSet o wt ht) s.canvas

/-- The state after an OBJ has been executed without a fault (R96). -/
def State.drawn (s : State) (o : ObjFields) (wt ht : Nat) : State :=
  { s.advance with canvas := s.composited o wt ht, nent := s.nent + 1#32 }

/-- An OBJ of `shape.1 × shape.2` tiles (R96): the range check, then the drawing (R85). -/
def execObj (shape : Nat × Nat) (o : ObjFields) (s : State) : Host.Outcome State Fault Refusal :=
  if s.st = .run then
    if s.tilesMissing o shape.1 shape.2 then .next (s.raise .tileRange s.opc)
    else .next (s.drawn o shape.1 shape.2)
  else .refused .recordOutsideRun

/-! ## The records -/

/-- END (R97): the cursor past its five bytes, the unit back in IDLE. -/
def execEndList (s : State) : Host.Outcome State Fault Refusal :=
  if s.st = .run then .next { s.advance with st := .idle } else .refused .recordOutsideRun

/-- OBJ.SQ0 (R73). -/
def execObjSq0 (o : ObjFields) (s : State) : Host.Outcome State Fault Refusal :=
  execObj (shapeOf 0#4 0#4) o s

/-- OBJ.SQ1 (R73). -/
def execObjSq1 (o : ObjFields) (s : State) : Host.Outcome State Fault Refusal :=
  execObj (shapeOf 1#4 0#4) o s

/-- OBJ.SQ2 (R73). -/
def execObjSq2 (o : ObjFields) (s : State) : Host.Outcome State Fault Refusal :=
  execObj (shapeOf 2#4 0#4) o s

/-- OBJ.SQ3 (R73). -/
def execObjSq3 (o : ObjFields) (s : State) : Host.Outcome State Fault Refusal :=
  execObj (shapeOf 3#4 0#4) o s

/-- OBJ.WD0 (R74). -/
def execObjWd0 (o : ObjFields) (s : State) : Host.Outcome State Fault Refusal :=
  execObj (shapeOf 0#4 1#4) o s

/-- OBJ.WD1 (R74). -/
def execObjWd1 (o : ObjFields) (s : State) : Host.Outcome State Fault Refusal :=
  execObj (shapeOf 1#4 1#4) o s

/-- OBJ.WD2 (R74, conflict C2). -/
def execObjWd2 (o : ObjFields) (s : State) : Host.Outcome State Fault Refusal :=
  execObj (shapeOf 2#4 1#4) o s

/-- OBJ.WD3 (R74, conflict C2). -/
def execObjWd3 (o : ObjFields) (s : State) : Host.Outcome State Fault Refusal :=
  execObj (shapeOf 3#4 1#4) o s

/-- OBJ.TL0 (R75). -/
def execObjTl0 (o : ObjFields) (s : State) : Host.Outcome State Fault Refusal :=
  execObj (shapeOf 0#4 2#4) o s

/-- OBJ.TL1 (R75). -/
def execObjTl1 (o : ObjFields) (s : State) : Host.Outcome State Fault Refusal :=
  execObj (shapeOf 1#4 2#4) o s

/-- OBJ.TL2 (R75). -/
def execObjTl2 (o : ObjFields) (s : State) : Host.Outcome State Fault Refusal :=
  execObj (shapeOf 2#4 2#4) o s

/-- OBJ.TL3 (R75). -/
def execObjTl3 (o : ObjFields) (s : State) : Host.Outcome State Fault Refusal :=
  execObj (shapeOf 3#4 2#4) o s

/-- OBJ.NULL (R76, R95): the table gives (0, 0) for its pair, so nothing is checked or drawn. -/
def execObjNull (o : ObjFields) (sz sh : Nibble) (s : State) : Host.Outcome State Fault Refusal :=
  execObj (shapeOf sz sh) o s

/-! ## RUN -/

/-- RUN's acceptance (R82): a fresh canvas, the cursor at OSRC, no entry counted. -/
def State.runAccepted (s : State) : State :=
  { s with canvas := [], opc := s.osrc, nent := 0#32, st := .run }

/-- RUN (R82, R106): the write of code 2 to CMD. -/
def execRun (s : State) : Host.Outcome State Fault Refusal := s.command s.runAccepted

end Machine
end Sys2Proof
end

