-- ==== Sys2Proof/Machine/TileDecoder.lean ====
section
/-! DEFINITION. TD: the function tile_decode_4bpp, the TLOAD command and its steps.
Spec: 40_tile_decode.md R60 to R68. -/

namespace Sys2Proof
namespace Machine

/-- `tile_decode_4bpp` (R62): for byte `i`, pixel `2i` is the low nibble and pixel `2i + 1` the high. -/
def tileDecode4bpp (b : TileBytes) : Tile :=
  Vector.ofFn fun p : Fin 64 =>
    if p.val % 2 = 0 then lowNibble b[p.val / 2] else highNibble b[p.val / 2]

/-- The inverse of R63 (b): `b[i] = px[2i] + 16 × px[2i+1]`. -/
def tileEncode4bpp (px : Tile) : TileBytes :=
  Vector.ofFn fun i : Fin 32 => nibblePair px[2 * i.val + 1] px[2 * i.val]

/-- `a = TSRC + 32 × NT`, on unbounded integers: where the next tile's bytes begin (R65). -/
def State.tileAddress (s : State) : Nat := s.tsrc.toNat + 32 * s.nt.toNat

/-- One tile stored in slot NT, and NT counted up (R65). -/
def State.storeTile (s : State) (t : Tile) : State :=
  { s with tiles := Mem.write blankTile s.tiles s.nt.toNat t, nt := s.nt + 1#32 }

/-- One step in STATE = TLOAD (R65): done when NT = TLEN div 32; else the next tile, or the
short-read fault with the whole tiles already loaded kept. -/
def State.tileStep (s : State) : State :=
  if s.nt.toNat = s.tileCount then { s with st := .idle }
  else
    match s.memRead s.tileAddress 32 with
    | none => s.raise .shortReadTile (BitVec.ofNat 32 s.tileAddress)
    | some b => s.storeTile (tileDecode4bpp b)

/-- TLOAD's acceptance (R64): the old tiles are gone; a region larger than the tile store is the
fault TILE_CAP, else the unit is busy loading. -/
def State.tloadAccepted (s : State) : State :=
  let emptied := { s with nt := 0#32, tiles := [] }
  if s.tileCap < s.tileCount then emptied.raise .tileCap s.tsrc
  else { emptied with st := .tload }

/-- TLOAD (R64, R105): the write of code 1 to CMD. -/
def execTload (s : State) : Host.Outcome State Fault Refusal := s.command s.tloadAccepted

end Machine
end Sys2Proof
end

