-- ==== Sys2Proof/Machine/Dispatch.lean ====
section
/-! DEFINITION. The dispatch: one arm per constructor of Instr, each a direct call of its meaning. -/

namespace Sys2Proof
namespace Machine

def exec (i : Instr) (s : State) : Host.Outcome State Fault Refusal :=
  match i with
  | .endList => Sys2Proof.Machine.execEndList s
  | .objSq0 o => Sys2Proof.Machine.execObjSq0 o s
  | .objSq1 o => Sys2Proof.Machine.execObjSq1 o s
  | .objSq2 o => Sys2Proof.Machine.execObjSq2 o s
  | .objSq3 o => Sys2Proof.Machine.execObjSq3 o s
  | .objWd0 o => Sys2Proof.Machine.execObjWd0 o s
  | .objWd1 o => Sys2Proof.Machine.execObjWd1 o s
  | .objWd2 o => Sys2Proof.Machine.execObjWd2 o s
  | .objWd3 o => Sys2Proof.Machine.execObjWd3 o s
  | .objTl0 o => Sys2Proof.Machine.execObjTl0 o s
  | .objTl1 o => Sys2Proof.Machine.execObjTl1 o s
  | .objTl2 o => Sys2Proof.Machine.execObjTl2 o s
  | .objTl3 o => Sys2Proof.Machine.execObjTl3 o s
  | .objNull o sz sh => Sys2Proof.Machine.execObjNull o sz sh s
  | .tload => Sys2Proof.Machine.execTload s
  | .run => Sys2Proof.Machine.execRun s

end Machine
end Sys2Proof
end

