-- ==== Sys2Proof/Machine/UnitStep.lean ====
section
/-! DEFINITION. One step of the unit: a tile in TLOAD, a record in RUN.
Spec: 40_tile_decode.md R65, 41_oam_entry.md R70, 42_sprite_compositor.md R96, 60_exceptions.md R118. -/

namespace Sys2Proof
namespace Machine

/-- One step in STATE = RUN (R96): the fetch of five bytes at OPC (R70), which faults when they are
not wholly inside SRC, then the record. -/
def State.recordStep (s : State) : Host.Outcome State Fault Refusal :=
  match s.memRead s.opc.toNat Config.oamBytes with
  | none => .next (s.raise .shortReadOam s.opc)
  | some r => exec (decodeRecord r) s

/-- One step of the unit. In IDLE it waits for the host and in FAULT it takes no step (R118, R124):
nothing changes (log 7). -/
def State.unitStep (s : State) : Host.Outcome State Fault Refusal :=
  match s.st with
  | .idle => .next s
  | .tload => .next s.tileStep
  | .run => s.recordStep
  | .fault => .next s

end Machine
end Sys2Proof
end

