-- ==== Sys2Proof/Machine/HostMoves.lean ====
section
/-! DEFINITION. The host's moves, state by state, and who moves next.
Spec: 43_host_commands.md R101 to R111, 20_memory.md R43, 70_reset_and_hazards.md R125 to R128. -/

namespace Sys2Proof
namespace Machine

/-- A read answered: the only change is the host's record of what it read (R102, R109: no side effect). -/
def State.reply (s : State) (r : Reply) : State := { s with replies := r :: s.replies }

/-- A move that is allowed in IDLE and FAULT and refused while the unit is busy (R110). -/
def State.unlessBusy (s : State) (out : Host.Outcome State Fault Refusal) :
    Host.Outcome State Fault Refusal :=
  if s.busy then .refused .hostMoveWhileBusy else out

/-- Register read (R102): STATUS in every state, the others only in IDLE or FAULT (R110). -/
def State.hostReadReg (s : State) (number : Nat) : Host.Outcome State Fault Refusal :=
  match regOfNumber number with
  | none => .refused (.noSuchRegister number)
  | some .status => .next (s.reply (.reg s.statusWord))
  | some r => s.unlessBusy (.next (s.reply (.reg (s.readReg r))))

/-- CMD dispatch in IDLE (R104): the two commands, and the fault ILLEGAL_CMD for every other value (R107). -/
def State.dispatchCommand (s : State) (c : Word) : Host.Outcome State Fault Refusal :=
  match decodeCommand c with
  | .ok i => exec i s
  | .error (.illegalCommand _) => .next (s.raise .illegalCmd 0#32)

/-- A register write in IDLE (R103): TSRC, TLEN and OSRC store the value, CMD dispatches, a write to
a read-only register is ignored. -/
def State.idleWriteReg (s : State) (r : Reg) (v : Word) : Host.Outcome State Fault Refusal :=
  match r with
  | .cmd => s.dispatchCommand v
  | .tsrc => .next { s with tsrc := v }
  | .tlen => .next { s with tlen := v }
  | .osrc => .next { s with osrc := v }
  | .status => .next s
  | .nt => .next s
  | .opc => .next s
  | .nent => .next s
  | .faddr => .next s

/-- Register write (R103, R110): effective in IDLE, ignored in FAULT, refused while busy. -/
def State.hostWriteReg (s : State) (number : Nat) (v : Word) : Host.Outcome State Fault Refusal :=
  match regOfNumber number with
  | none => .refused (.noSuchRegister number)
  | some r =>
    match s.st with
    | .idle => s.idleWriteReg r v
    | .fault => .next s
    | .tload => .refused .hostMoveWhileBusy
    | .run => .refused .hostMoveWhileBusy

/-- Tile port read (R109): defined for n < NT and p < 64. -/
def State.hostReadTile (s : State) (n p : Nat) : Host.Outcome State Fault Refusal :=
  s.unlessBusy <|
    if n < s.nt.toNat ∧ p < 64 then .next (s.reply (.tile (s.tilePixel n p)))
    else .refused (.tilePortRange n p)

/-- Canvas port read (R109): defined for r, c < 512. -/
def State.hostReadCanvas (s : State) (r c : Nat) : Host.Outcome State Fault Refusal :=
  s.unlessBusy <|
    if r < Config.canvasHeight ∧ c < Config.canvasWidth then .next (s.reply (.canvas (s.canvasCell r c)))
    else .refused (.canvasPortRange r c)

/-- Change of SRC (R43, R110), inside its SRC_LEN bytes (log 10). -/
def State.hostChangeSrc (s : State) (a : Nat) (bytes : List Byte) : Host.Outcome State Fault Refusal :=
  s.unlessBusy <|
    if a + bytes.length ≤ s.srcLen.toNat then .next { s with src := Mem.writeBytes s.src a bytes }
    else .refused (.srcRange a)

/-- A move of the host: the table of R110. -/
def State.hostMove (s : State) (m : Move) : Host.Outcome State Fault Refusal :=
  match m with
  | .readReg n => s.hostReadReg n
  | .writeReg n v => s.hostWriteReg n v
  | .readTile n p => s.hostReadTile n p
  | .readCanvas r c => s.hostReadCanvas r c
  | .changeSrc a bytes => s.hostChangeSrc a bytes
  | .reset => .next s.resetUnit

/-- Who acts (log 6): the first turn of the script; with no turn left the unit acts by itself. A host
that awaits keeps its turn while the unit is busy. -/
def State.takeTurn (s : State) : Host.Outcome State Fault Refusal :=
  match s.script with
  | [] => s.unitStep
  | .unit :: rest => { s with script := rest }.unitStep
  | .await :: rest => if s.busy then s.unitStep else .next { s with script := rest }
  | .move m :: rest => { s with script := rest }.hostMove m

end Machine
end Sys2Proof
end

