-- ==== Sys2Proof/Machine/Step.lean ====
section
/-! DEFINITION. The step of the machine, and an instruction placed where the next step takes it. -/

namespace Sys2Proof
namespace Machine

/-- One step: the next turn of the host and the unit (Machine/HostMoves.lean). -/
def step (s : State) : Host.Outcome State Fault Refusal := s.takeTurn

/-- `s` with the instruction of the table word `w` next: a record in SRC at OPC with the unit in RUN
and its turn next, or a command as the host's next move with the unit in IDLE (log 22). -/
def State.withFetchWord (s : State) (nbits w : Nat) : State :=
  match tableEncoding nbits w with
  | none => s
  | some (.oam5 r) => s.placeRecord r
  | some (.cmd c) => s.placeCommand c

end Machine
end Sys2Proof
end

