-- ==== Sys2Proof/Safety.lean ====
section
/-! DEFINITION. What a sound state is, and the result of a whole command, in the terms the statements
use. Spec: 10_state.md R15, R17, R19, R20, R25, R26; 40_tile_decode.md R66; 42_sprite_compositor.md
R84, R98; 60_exceptions.md R117. -/

namespace Sys2Proof
namespace Machine

/-! ## Invariants of the machine -/

/-- The three memories are in canonical form, and SRC lists no byte at or beyond SRC_LEN (R32). -/
def State.MemorySound (s : State) : Prop :=
  Memory.wf s.src ∧ Memory.wf s.canvas ∧ Mem.wf blankTile s.tiles ∧
    ∀ c ∈ s.src, c.1 < s.srcLen.toNat

/-- Every canvas cell is 0, or its colour is not slot 0 of a bank (R19) and it lies in rows and
columns 128 to 446 (R84). -/
def State.CanvasSound (s : State) : Prop :=
  Memory.wf s.canvas ∧
    ∀ r c, c < 512 → s.canvasCell r c = 0#8 ∨
      ((s.canvasCell r c).toNat % 16 ≠ 0 ∧ 128 ≤ r ∧ r ≤ 446 ∧ 128 ≤ c ∧ c ≤ 446)

/-- CAUSE and FOP are 0 outside FAULT and both non-zero in FAULT (R20), FADDR is 0 until a fault
(R27), and after a fault of RUN OPC names the record at fault (R15, R113). -/
def State.StatusSound (s : State) : Prop :=
  (s.st ≠ .fault → s.cause = .none ∧ s.fop = .none ∧ s.faddr = 0#32) ∧
  (s.st = .fault → s.cause ≠ .none ∧ s.fop ≠ .none) ∧
  ((s.cause = .shortReadOam ∨ s.cause = .tileRange) → s.faddr = s.opc)

/-- NT is at most TILE_CAP (R25), no slot at or above NT holds a tile (R17), and while TLOAD is busy
the tiles loaded so far are part of the region and were read from inside SRC (R65). -/
def State.TilesSound (s : State) : Prop :=
  s.nt.toNat ≤ s.tileCap ∧ (∀ c ∈ s.tiles, c.1 < s.nt.toNat) ∧
  (s.st = .tload → s.nt.toNat ≤ s.tileCount ∧ s.tileCount ≤ s.tileCap ∧
    (0 < s.nt.toNat → s.tileAddress ≤ s.srcLen.toNat))

/-- The counted records fit SRC (R26, log 20), and while RUN is busy OPC is OSRC plus five bytes for
each of them (R15, R98). -/
def State.CursorSound (s : State) : Prop :=
  5 * s.nent.toNat ≤ s.srcLen.toNat ∧
  (s.st = .run → s.opc.toNat = s.osrc.toNat + 5 * s.nent.toNat ∧
    (0 < s.nent.toNat → s.opc.toNat ≤ s.srcLen.toNat))

/-- All of them. -/
def State.Sound (s : State) : Prop :=
  s.MemorySound ∧ s.CanvasSound ∧ s.StatusSound ∧ s.TilesSound ∧ s.CursorSound

/-! ## A whole TLOAD (R66) -/

/-- The number of whole tiles of the region that lie inside SRC: `(SRC_LEN - TSRC) div 32`, 0 when
TSRC is beyond SRC (R66). -/
def State.tilesThatFit (s : State) : Nat := (s.srcLen.toNat - s.tsrc.toNat) / 32

/-- Tile `n` of the region: the decoding of the 32 bytes at `TSRC + 32n` (R65, R66). -/
def State.regionTile (s : State) (n : Nat) : Tile :=
  tileDecode4bpp (Vector.ofFn fun i => s.srcByte (s.tsrc.toNat + 32 * n + i.val))

/-! ## A whole RUN (R98) -/

/-- `rec_j`, the record at `OSRC + 5j`, if it fits in SRC. -/
def State.listRecord (s : State) (j : Nat) : Option Record :=
  s.memRead (s.osrc.toNat + 5 * j) 5

/-- `(wt, ht)` of a record (R72). -/
def recordShape (r : Record) : Nat × Nat := shapeOf (sizeClass r) (shapeModifier r)

/-- `rec_j` fits, is an OBJ and passes the tile range check (R98). -/
def State.recordRuns (s : State) (j : Nat) : Prop :=
  ∃ r, s.listRecord j = some r ∧ r[0] ≠ 0xFF#8 ∧
    ¬ s.tilesMissing (objFields r) (recordShape r).1 (recordShape r).2

/-- The cleared canvas with the write sets of the records before `n` applied in order (R98). -/
def State.listCanvas (s : State) (n : Nat) : Memory :=
  match n with
  | 0 => []
  | j + 1 =>
    match s.listRecord j with
    | none => s.listCanvas j
    | some r => { s with canvas := s.listCanvas j }.composited (objFields r)
        (recordShape r).1 (recordShape r).2

/-- `k` steps of the machine. -/
abbrev runSteps (k : Nat) (s : State) : Host.Outcome State Fault Refusal :=
  Host.Core.run Sys2Proof.core k s

end Machine
end Sys2Proof
end

