-- ==== Sys2Proof/Certificates/Slice0/Obligations.lean ====
section
/-! DEFINITION. The statements for the provers, from the numbered rules of spec/. Each docstring names
the rule it formalises; a `[decision: …]` of the spec is a rule of the spec, and where a clause rests on
a reading the spec marks as derived or as general knowledge, or on a choice of the model, it says so. -/

open Sys2Proof Sys2Proof.Machine

namespace Sys2Proof
namespace Certificates

/-! ## Words the statements use -/

/-- The byte as a signed number: `b` if `b < 128`, else `b - 256` (R9). -/
def signedByte (b : Byte) : Int := if b.toNat < 128 then (b.toNat : Int) else (b.toNat : Int) - 256

/-- The five bytes of SRC from address `a` on. -/
def recordFrom (s : State) (a : Nat) : Record := Vector.ofFn fun k => s.srcByte (a + k.val)

/-- The unit is about to execute a record by itself: STATE = RUN and no turn of the host's left. -/
abbrev AtRecord (s : State) : Prop := s.st = .run ∧ s.script = []

/-- The state with a fault recorded (R116), written out. -/
def faulted (s : State) (c : Cause) (f : FaultOp) (addr : Word) : State :=
  { s with st := .fault, cause := c, fop := f, faddr := addr }

/-- `CANVAS[r][c]` after an OBJ of `wt × ht` tiles has been drawn, in the closed form of R99. -/
def cellAfterDraw (s : State) (o : ObjFields) (wt ht r c : Nat) : Byte :=
  let sy : Int := (r : Int) - 256 - signedByte o.y
  let sx : Int := (c : Int) - 256 - signedByte o.x
  if 0 ≤ sx ∧ sx < 8 * (wt : Int) ∧ 0 ≤ sy ∧ sy < 8 * (ht : Int) then
    let ux := (if o.hf then 8 * (wt : Int) - 1 - sx else sx).toNat
    let uy := (if o.vf then 8 * (ht : Int) - 1 - sy else sy).toNat
    let n := o.ti.toNat + (uy / 8) * wt + ux / 8
    let p := s.tilePixel n ((uy % 8) * 8 + ux % 8)
    if p.toNat = 0 then s.canvasCell r c else BitVec.ofNat 8 (p.toNat + 16 * o.pb.toNat)
  else s.canvasCell r c

/-- The instruction draws a block of `wt × ht` tiles in RUN when every tile of it is loaded: exec
answers the next state in which OPC has advanced by 5, NENT has grown by 1, every canvas cell is as
R99 says, the canvas is in canonical form, and nothing else has changed. -/
def DrawsBlock (i : Instr) (o : ObjFields) (wt ht : Nat) : Prop :=
  ∀ s : State, s.st = .run → Memory.wf s.canvas → o.ti.toNat + wt * ht ≤ s.nt.toNat →
    ∃ t, exec i s = .next t ∧
      t = { s with canvas := t.canvas, opc := s.opc + 5#32, nent := s.nent + 1#32 } ∧
      Memory.wf t.canvas ∧
      ∀ r c, c < 512 → t.canvasCell r c = cellAfterDraw s o wt ht r c

/-- The instruction faults with TILE_RANGE in RUN exactly when a tile of its block is missing, and then
changes nothing but STATUS and FADDR. -/
def FaultsWhenTilesMissing (i : Instr) (o : ObjFields) (wt ht : Nat) : Prop :=
  ∀ s : State, s.st = .run →
    (exec i s = .next (faulted s .tileRange .run s.opc) ↔ s.nt.toNat < o.ti.toNat + wt * ht)

/-- A property of an OBJ form, for all 12 forms with the sizes of R51. -/
def ForAllForms (P : Instr → ObjFields → Nat → Nat → Prop) : Prop :=
  ∀ o : ObjFields,
    P (.objSq0 o) o 1 1 ∧ P (.objSq1 o) o 2 2 ∧ P (.objSq2 o) o 4 4 ∧ P (.objSq3 o) o 8 8 ∧
    P (.objWd0 o) o 2 1 ∧ P (.objWd1 o) o 4 1 ∧ P (.objWd2 o) o 8 4 ∧ P (.objWd3 o) o 8 2 ∧
    P (.objTl0 o) o 1 2 ∧ P (.objTl1 o) o 1 4 ∧ P (.objTl2 o) o 2 4 ∧ P (.objTl3 o) o 4 8

/-- The record may be executed: it is an instruction of the OAM list, not a command. -/
def isRecord (i : Instr) : Prop := i ≠ .tload ∧ i ≠ .run

/-- The record is an OBJ whose tile block is not zero-sized and reaches beyond the tile list (R86). -/
abbrev TilesMissingAt (s : State) (r : Record) : Prop :=
  r[0] ≠ 0xFF#8 ∧ 0 < (recordShape r).1 * (recordShape r).2 ∧
    s.nt.toNat < r[0].toNat + (recordShape r).1 * (recordShape r).2

/-- Two states hold the same inputs of a RUN: tile store, NT, OSRC and SRC (R134). -/
abbrev SameRunInputs (s t : State) : Prop :=
  s.tiles = t.tiles ∧ s.nt = t.nt ∧ s.osrc = t.osrc ∧ s.src = t.src ∧ s.srcLen = t.srcLen

/-- Two outcomes are next states that agree on what a RUN computes: canvas, OPC, NENT, STATE, and the
fault record where it has faulted. -/
def AgreeOnRunResults (a b : Host.Outcome State Fault Refusal) : Prop :=
  match a, b with
  | .next u, .next v =>
    u.canvas = v.canvas ∧ u.opc = v.opc ∧ u.nent = v.nent ∧ u.st = v.st ∧
      (u.st = .fault → u.cause = v.cause ∧ u.fop = v.fop ∧ u.faddr = v.faddr)
  | _, _ => False

end Certificates
end Sys2Proof

open Sys2Proof.Certificates

/-! ## Encoding -/

/-- Words of the opcode table, written out from R45, R51, R55 and R56, decode to their instruction. -/
def Obligations.TableWordsDecode : Prop :=
  decodeTableWord 40 0x78563412FF = some .endList ∧
  decodeTableWord 40 0x52C310F812 = some (.objTl3 ⟨0x12#8, 0xF8#8, 0x10#8, true, true, 5#4⟩) ∧
  decodeTableWord 40 0xA141807F05 = some (.objWd1 ⟨5#8, 0x7F#8, 0x80#8, true, false, 10#4⟩) ∧
  decodeTableWord 40 0x0002000000 = some (.objSq2 ⟨0#8, 0#8, 0#8, false, false, 0#4⟩) ∧
  decodeTableWord 40 0x0004000005 = some (.objNull ⟨5#8, 0#8, 0#8, false, false, 0#4⟩ 4#4 0#4) ∧
  decodeTableWord 32 1 = some .tload ∧
  decodeTableWord 32 2 = some .run ∧
  decodeTableWord 32 0x101 = none

/-- Decoding the encoding of a well-formed instruction gives it back, for every constructor and every
operand value (R45, R48, R51 to R56 together). -/
def Obligations.DecodeOfEncodeIsIdentity : Prop :=
  ∀ i : Instr, i.WellFormed → decode (encode i) = .ok i

/-- What the decoder answers is always well-formed. -/
def Obligations.DecodedInstructionIsWellFormed : Prop :=
  ∀ (e : Encoding) (i : Instr), decode e = .ok i → i.WellFormed

/-- The other direction for OBJ records: encoding the decoded record gives the record back with bits
5:4 of byte 3 written 0 (R48, R58). -/
def Obligations.EncodeOfDecodeClearsIgnoredBits : Prop :=
  ∀ r : Record, r[0] ≠ 0xFF#8 →
    encode (decodeRecord r) = .oam5 #v[r[0], r[1], r[2], r[3] &&& 0xCF#8, r[4]]

/-- R55: the 40-bit word of a record, its fields, and the decoder as the first row, in ascending
priority, whose mask and match fit the word. -/
def Obligations.RecordDecodeFollowsTheTable : Prop :=
  (∀ r : Record,
    (recordWord r).toNat = r[0].toNat + r[1].toNat * 2 ^ 8 + r[2].toNat * 2 ^ 16 +
      r[3].toNat * 2 ^ 24 + r[4].toNat * 2 ^ 32) ∧
  (∀ r : Record,
    (objFields r).ti = (recordWord r).extractLsb' 0 8 ∧
    (objFields r).x = (recordWord r).extractLsb' 8 8 ∧
    (objFields r).y = (recordWord r).extractLsb' 16 8 ∧
    sizeClass r = (recordWord r).extractLsb' 24 4 ∧
    (objFields r).hf = (recordWord r).getLsbD 30 ∧
    (objFields r).vf = (recordWord r).getLsbD 31 ∧
    shapeModifier r = (recordWord r).extractLsb' 32 4 ∧
    (objFields r).pb = (recordWord r).extractLsb' 36 4) ∧
  recordTable.map (fun row => (row.mnemonic, row.priority, row.mask, row.pattern)) =
    [("END", 0, 0x00000000FF#40, 0x00000000FF#40),
     ("OBJ.SQ0", 1, 0x0F0F000000#40, 0x0000000000#40), ("OBJ.SQ1", 1, 0x0F0F000000#40, 0x0001000000#40),
     ("OBJ.SQ2", 1, 0x0F0F000000#40, 0x0002000000#40), ("OBJ.SQ3", 1, 0x0F0F000000#40, 0x0003000000#40),
     ("OBJ.WD0", 1, 0x0F0F000000#40, 0x0100000000#40), ("OBJ.WD1", 1, 0x0F0F000000#40, 0x0101000000#40),
     ("OBJ.WD2", 1, 0x0F0F000000#40, 0x0102000000#40), ("OBJ.WD3", 1, 0x0F0F000000#40, 0x0103000000#40),
     ("OBJ.TL0", 1, 0x0F0F000000#40, 0x0200000000#40), ("OBJ.TL1", 1, 0x0F0F000000#40, 0x0201000000#40),
     ("OBJ.TL2", 1, 0x0F0F000000#40, 0x0202000000#40), ("OBJ.TL3", 1, 0x0F0F000000#40, 0x0203000000#40),
     ("OBJ.NULL", 2, 0#40, 0#40)] ∧
  (∀ r : Record, tableLookup r = some (mnemonicOf (decodeRecord r)))

/-- R48 (decision D9): records that differ only in bits 5:4 of byte 3 decode alike, and the assembler writes them 0. -/
def Obligations.IgnoredBitsTakeNoPart : Prop :=
  (∀ r q : Record, r[0] = q[0] → r[1] = q[1] → r[2] = q[2] → r[3] &&& 0xCF#8 = q[3] &&& 0xCF#8 →
    r[4] = q[4] → decodeRecord r = decodeRecord q) ∧
  (∀ ti x y sz sh pb h v r, assembleObj ti x y sz sh pb h v = some r → r[3] &&& 0x30#8 = 0#8)

/-- R45, R46, R49 (decisions D8, D10; the signed bytes by `sext_8` of R9): where each field of an OBJ record lies, in arithmetic on its bytes; the nibbles of
size class and shape modifier are looked up whole, and miss the table from 4 and from 3 on. -/
def Obligations.RecordFieldsByByte : Prop :=
  (∀ r : Record,
    (objFields r).ti = r[0] ∧
    sext8 (objFields r).x = signedByte r[1] ∧
    sext8 (objFields r).y = signedByte r[2] ∧
    (sizeClass r).toNat = r[3].toNat % 16 ∧
    ((objFields r).hf = true ↔ r[3].toNat / 64 % 2 = 1) ∧
    ((objFields r).vf = true ↔ r[3].toNat / 128 = 1) ∧
    (shapeModifier r).toNat = r[4].toNat % 16 ∧
    (objFields r).pb.toNat = r[4].toNat / 16) ∧
  (∀ sz sh : Nibble, 4 ≤ sz.toNat ∨ 3 ≤ sh.toNat → shapeOf sz sh = (0, 0))

/-- R51 (decision D11; the document's literals, conflict C2): the 12 entries, by shape modifier and size
class, and nothing for the other 244 pairs. -/
def Obligations.ShapeTableEntries : Prop :=
  (List.range 3).map (fun sh => (List.range 4).map fun sz =>
      Config.shapeTable (BitVec.ofNat 4 sz) (BitVec.ofNat 4 sh)) =
    [[some (1, 1), some (2, 2), some (4, 4), some (8, 8)],
     [some (2, 1), some (4, 1), some (8, 4), some (8, 2)],
     [some (1, 2), some (1, 4), some (2, 4), some (4, 8)]] ∧
  (∀ sz sh : Nibble, ¬ isShapeKey sz sh → Config.shapeTable sz sh = none ∧ shapeOf sz sh = (0, 0)) ∧
  ((List.range 256).countP fun k =>
    (Config.shapeTable (BitVec.ofNat 4 (k % 16)) (BitVec.ofNat 4 (k / 16))).isNone) = 244

/-- From R58 (decision D29): operands in range assemble to a record that the disassembler prints back with no ignored bit
set; operands out of range, `ti = 255` among them, are refused. -/
def Obligations.AssembleThenDisassemble : Prop :=
  (∀ ti x y sz sh pb h v, objOperandsInRange ti x y sz sh pb →
    ∃ r, assembleObj ti x y sz sh pb h v = some r ∧
      disassemble r = (.obj ti x y sz sh pb h v, 0#2)) ∧
  (∀ ti x y sz sh pb h v, ¬ objOperandsInRange ti x y sz sh pb →
    assembleObj ti x y sz sh pb h v = none)

/-! ## The tile decoder and TLOAD -/

/-- R62: pixel 2i is the low nibble of byte i, pixel 2i+1 its high nibble. -/
def Obligations.TileDecodeNibbleOrder : Prop :=
  ∀ (b : TileBytes) (i : Fin 32),
    (tileDecode4bpp b)[2 * i.val].toNat = b[i].toNat % 16 ∧
    (tileDecode4bpp b)[2 * i.val + 1].toNat = b[i].toNat / 16

/-- R63 (b), derived in the spec: the decoder is a bijection between 32 bytes and 64 nibbles. -/
def Obligations.TileDecodeIsBijective : Prop :=
  (∀ b : TileBytes, tileEncode4bpp (tileDecode4bpp b) = b) ∧
  (∀ t : Tile, tileDecode4bpp (tileEncode4bpp t) = t)

/-- From R64 (decisions D5, D6, D7) and R104: TLOAD in IDLE empties the store; a region larger than the store faults
with TILE_CAP, any other makes the unit busy loading. Nothing else changes. It is accepted only in
IDLE: ignored in FAULT, refused while the unit is busy (R104). -/
def Obligations.TloadAcceptance : Prop :=
  ∀ s : State,
    (s.st = .idle → s.tlen.toNat / 32 ≤ s.tileCap →
      exec .tload s = .next { s with nt := 0#32, tiles := [], st := .tload }) ∧
    (s.st = .idle → s.tileCap < s.tlen.toNat / 32 →
      exec .tload s = .next (faulted { s with nt := 0#32, tiles := [] } .tileCap .tload s.tsrc)) ∧
    (s.st = .fault → exec .tload s = .next s) ∧
    (s.st = .tload ∨ s.st = .run → exec .tload s = .refused .hostMoveWhileBusy)

/-- R65 (decisions D3, D7): the three outcomes of a step in STATE = TLOAD. A stored tile changes slot NT
alone; the address a fault records fits 32 bits in every state that meets the invariant TilesSound. -/
def Obligations.TloadStep : Prop :=
  ∀ s : State, s.st = .tload → s.script = [] → Mem.wf blankTile s.tiles →
    (s.nt.toNat = s.tlen.toNat / 32 → step s = .next { s with st := .idle }) ∧
    (s.nt.toNat ≠ s.tlen.toNat / 32 → s.srcLen.toNat < s.tsrc.toNat + 32 * s.nt.toNat + 32 →
      step s = .next (faulted s .shortReadTile .tload
        (BitVec.ofNat 32 (s.tsrc.toNat + 32 * s.nt.toNat)))) ∧
    (s.nt.toNat ≠ s.tlen.toNat / 32 → s.tsrc.toNat + 32 * s.nt.toNat + 32 ≤ s.srcLen.toNat →
      ∃ t, step s = .next t ∧ t = { s with tiles := t.tiles, nt := s.nt + 1#32 } ∧
        (∀ p < 64, (t.tilePixel s.nt.toNat p).toNat =
          if p % 2 = 0 then (s.srcByte (s.tsrc.toNat + 32 * s.nt.toNat + p / 2)).toNat % 16
          else (s.srcByte (s.tsrc.toNat + 32 * s.nt.toNat + p / 2)).toNat / 16) ∧
        (∀ n p, n ≠ s.nt.toNat → t.tilePixel n p = s.tilePixel n p)) ∧
    (s.TilesSound → s.tsrc.toNat + 32 * s.nt.toNat ≤ max s.tsrc.toNat s.srcLen.toNat)

/-- R66, derived in the spec: a TLOAD whose `count` tiles are all inside SRC ends in IDLE after
`count + 1` steps, NT = count, tile `n` decoded from the 32 bytes at `TSRC + 32n`. -/
def Obligations.TloadLoadsTheRegion : Prop :=
  ∀ s : State, s.st = .idle → s.script = [] → s.tileCount ≤ s.tileCap →
    s.tileCount ≤ s.tilesThatFit →
    ∃ t, exec .tload s = .next s.tloadAccepted ∧
      runSteps (s.tileCount + 1) s.tloadAccepted = .next t ∧
      t = { s with tiles := t.tiles, nt := BitVec.ofNat 32 s.tileCount } ∧
      (∀ n < s.tileCount, ∀ p < 64, t.tilePixel n p = (s.regionTile n)[p]?.getD 0#4)

/-- R66, derived in the spec: a TLOAD of which only `m` whole tiles are inside SRC faults after
`m + 1` steps with SHORT_READ_TILE, FADDR = TSRC + 32m, the `m` tiles kept. -/
def Obligations.TloadShortReadKeepsWholeTiles : Prop :=
  ∀ s : State, s.st = .idle → s.script = [] → s.tileCount ≤ s.tileCap →
    s.tilesThatFit < s.tileCount →
    ∃ t, exec .tload s = .next s.tloadAccepted ∧
      runSteps (s.tilesThatFit + 1) s.tloadAccepted = .next t ∧
      t = faulted { s with tiles := t.tiles, nt := BitVec.ofNat 32 s.tilesThatFit }
        .shortReadTile .tload (BitVec.ofNat 32 (s.tsrc.toNat + 32 * s.tilesThatFit)) ∧
      (∀ n < s.tilesThatFit, ∀ p < 64, t.tilePixel n p = (s.regionTile n)[p]?.getD 0#4)

/-! ## The compositor: pixels -/

/-- R88 (decision D18): the palette bank offset; a result other than 0 lies in 1 to 255 and gives pixel
and bank back; 255 is reached by `p = 15`, `pb = 15`; the tile store keeps the unbiased value. -/
def Obligations.PaletteBankOffset : Prop :=
  (∀ p pb : Nibble,
    (p = 0#4 → bias p pb = 0#8) ∧
    (p ≠ 0#4 → (bias p pb).toNat = p.toNat + 16 * pb.toNat ∧ 1 ≤ (bias p pb).toNat ∧
      (bias p pb).toNat ≤ 255 ∧ (bias p pb).toNat % 16 = p.toNat ∧
      (bias p pb).toNat / 16 = pb.toNat)) ∧
  bias 15#4 15#4 = 255#8 ∧
  (∀ (s : State) (o : ObjFields) (wt ht : Nat), (s.drawn o wt ht).tiles = s.tiles)

/-- R87 (decision D4): a cell of the sub-bitmap is the biased pixel of the tile of the block that covers it. -/
def Obligations.SubBitmapFromTiles : Prop :=
  ∀ (s : State) (o : ObjFields) (wt sx sy : Nat),
    s.subPixel o wt sx sy =
      bias (s.tilePixel (o.ti.toNat + (sy / 8) * wt + sx / 8) ((sy % 8) * 8 + sx % 8)) o.pb

/-- From R91 and R92 (the meaning of the flips is general knowledge in the spec, log 18): FLP takes SUB's
column `W - 1 - sx` when flipped horizontally and row `H - 1 - sy` when flipped vertically, each flip
is its own inverse, and FLP holds the same values as SUB, each as often. -/
def Obligations.FlipsPermuteTheObject : Prop :=
  (∀ (s : State) (o : ObjFields) (wt ht sx sy : Nat),
    s.flippedPixel o wt ht sx sy =
      s.subPixel o wt (if o.hf then 8 * wt - 1 - sx else sx) (if o.vf then 8 * ht - 1 - sy else sy)) ∧
  (∀ (f : Bool) (n i : Nat), i < n → mirror f n i < n ∧ mirror f n (mirror f n i) = i) ∧
  (∀ (s : State) (o : ObjFields) (wt ht : Nat),
    List.Perm
      ((List.range (8 * ht)).flatMap fun sy => (List.range (8 * wt)).map fun sx =>
        s.flippedPixel o wt ht sx sy)
      ((List.range (8 * ht)).flatMap fun sy => (List.range (8 * wt)).map fun sx =>
        s.subPixel o wt sx sy))

/-- From R83 and R84 (R84 derived in the spec; signed bytes log 17): pixel (sx, sy) goes to column
`256 + x + sx`, row `256 + y + sy`, always in rows and columns 128 to 446. -/
def Obligations.ObjectLiesInsideTheCanvas : Prop :=
  ∀ (o : ObjFields) (sx sy : Nat), sx < 64 → sy < 64 →
    (canvasRow o sy : Int) = 256 + signedByte o.y + sy ∧
    (canvasColumn o sx : Int) = 256 + signedByte o.x + sx ∧
    128 ≤ canvasRow o sy ∧ canvasRow o sy ≤ 446 ∧
    128 ≤ canvasColumn o sx ∧ canvasColumn o sx ≤ 446

/-! ## The compositor: records -/

/-- The square forms (from R73, R96, R99, the last derived in the spec): complete, with their result and frame. -/
def Obligations.SquareFormsDraw : Prop :=
  ∀ o : ObjFields,
    DrawsBlock (.objSq0 o) o 1 1 ∧ DrawsBlock (.objSq1 o) o 2 2 ∧
    DrawsBlock (.objSq2 o) o 4 4 ∧ DrawsBlock (.objSq3 o) o 8 8

/-- The wide forms (from R74, R96, R99, the last derived in the spec; sizes 2 and 3 are the literals of conflict C2, log 15). -/
def Obligations.WideFormsDraw : Prop :=
  ∀ o : ObjFields,
    DrawsBlock (.objWd0 o) o 2 1 ∧ DrawsBlock (.objWd1 o) o 4 1 ∧
    DrawsBlock (.objWd2 o) o 8 4 ∧ DrawsBlock (.objWd3 o) o 8 2

/-- The tall forms (from R75, R96, R99, the last derived in the spec). -/
def Obligations.TallFormsDraw : Prop :=
  ∀ o : ObjFields,
    DrawsBlock (.objTl0 o) o 1 2 ∧ DrawsBlock (.objTl1 o) o 1 4 ∧
    DrawsBlock (.objTl2 o) o 2 4 ∧ DrawsBlock (.objTl3 o) o 4 8

/-- R95 (decision D17): a zero-sized OBJ in RUN references no tile, whatever `ti` is, draws nothing, advances OPC by 5
and is counted. -/
def Obligations.ZeroSizedObjectOnlyCounts : Prop :=
  ∀ (s : State) (o : ObjFields) (sz sh : Nibble), s.st = .run → (Instr.objNull o sz sh).WellFormed →
    exec (.objNull o sz sh) s = .next { s with opc := s.opc + 5#32, nent := s.nent + 1#32 }

/-- R97 (decision D34): END in RUN advances OPC by 5 and returns the unit to IDLE; canvas, NENT and the rest stay. -/
def Obligations.EndReturnsToIdle : Prop :=
  ∀ s : State, s.st = .run →
    exec .endList s = .next { s with opc := s.opc + 5#32, st := .idle }

/-- R86 (decision D16): the tile at tile-column `tx`, tile-row `ty` is slot `ti + ty × wt + tx`, and a
block faults, for the whole object and before anything is drawn, exactly when it reaches beyond the
tile list, in each of the 12 forms. -/
def Obligations.MissingTilesFault : Prop :=
  (∀ ti wt tx ty, tileSlot ti wt tx ty = ti + ty * wt + tx) ∧ ForAllForms FaultsWhenTilesMissing

/-- R82 (decision D18): RUN in IDLE clears the canvas, sets OPC to OSRC and NENT to 0 and makes the unit
busy; every cell of the canvas is then 0. It is accepted only in IDLE: ignored in FAULT, refused while
the unit is busy (R104). -/
def Obligations.RunAcceptance : Prop :=
  ∀ s : State,
    (s.st = .idle →
      ∃ t, exec .run s = .next t ∧
        t = { s with canvas := t.canvas, opc := s.osrc, nent := 0#32, st := .run } ∧
        ∀ r c, t.canvasCell r c = 0#8) ∧
    (s.st = .fault → exec .run s = .next s) ∧
    (s.st = .tload ∨ s.st = .run → exec .run s = .refused .hostMoveWhileBusy)

/-- The model's own guard (log 11, resting on R96's "taken while STATE = RUN"): a record handed to exec
outside RUN is refused. -/
def Obligations.RecordOutsideRunIsRefused : Prop :=
  ∀ (i : Instr) (s : State), isRecord i → s.st ≠ .run → exec i s = .refused .recordOutsideRun

/-- From R70 (decision D13): a step in RUN runs the instruction its five bytes decode to; when the five bytes are
not wholly inside SRC it faults with SHORT_READ_OAM, an END among them. What the step adds around exec
is the turn it takes off the script, which is the model's choice: none where no turn is left (log 6) or
the host awaits (log 8). -/
def Obligations.StepRunsTheDecodedRecord : Prop :=
  ∀ s : State, s.st = .run → ∀ taken : List Turn,
    (s.script = [] ∧ taken = []) ∨ s.script = .unit :: taken ∨
      (s.script = taken ∧ taken.head? = some .await) →
    (s.opc.toNat + 5 ≤ s.srcLen.toNat →
      step s = exec (decodeRecord (recordFrom s s.opc.toNat)) { s with script := taken }) ∧
    (s.srcLen.toNat < s.opc.toNat + 5 →
      step s = .next (faulted { s with script := taken } .shortReadOam .run s.opc))

/-- R53 (decision D13): byte 0 alone decides END, and the four bytes after it are fetched and ignored. -/
def Obligations.ByteZeroAloneDecidesEnd : Prop :=
  (∀ r : Record, decodeRecord r = .endList ↔ r[0] = 0xFF#8) ∧
  (∀ s : State, AtRecord s → s.srcByte s.opc.toNat = 0xFF#8 →
    (s.opc.toNat + 5 ≤ s.srcLen.toNat →
      step s = .next { s with opc := s.opc + 5#32, st := .idle }) ∧
    (s.srcLen.toNat < s.opc.toNat + 5 →
      step s = .next (faulted s .shortReadOam .run s.opc)))

/-- From R96 and R99 (R99 derived in the spec): the step of RUN on an OBJ record at OPC, with the block of the record's own shape. -/
def Obligations.RunStepOnAnObject : Prop :=
  ∀ (s : State) (r : Record), AtRecord s → Memory.wf s.canvas →
    s.opc.toNat + 5 ≤ s.srcLen.toNat → r = recordFrom s s.opc.toNat → r[0] ≠ 0xFF#8 →
    (0 < (recordShape r).1 * (recordShape r).2 →
      s.nt.toNat < r[0].toNat + (recordShape r).1 * (recordShape r).2 →
      step s = .next (faulted s .tileRange .run s.opc)) ∧
    ((recordShape r).1 * (recordShape r).2 = 0 ∨
        r[0].toNat + (recordShape r).1 * (recordShape r).2 ≤ s.nt.toNat →
      ∃ t, step s = .next t ∧
        t = { s with canvas := t.canvas, opc := s.opc + 5#32, nent := s.nent + 1#32 } ∧
        Memory.wf t.canvas ∧
        ∀ row col, col < 512 → t.canvasCell row col =
          cellAfterDraw s (objFields r) (recordShape r).1 (recordShape r).2 row col)

/-- R94, R100 (a) (R100 derived in the spec): the same record executed twice draws once. -/
def Obligations.RepeatedDrawIsIdempotent : Prop :=
  ∀ (s : State) (o : ObjFields) (wt ht : Nat), wt ≤ 8 → ht ≤ 8 → Memory.wf s.canvas →
    ((s.drawn o wt ht).drawn o wt ht).canvas = (s.drawn o wt ht).canvas

/-- From R94 and R99 (R99 derived in the spec): after two records every cell shows the later object where that one is not transparent, and
what the earlier record left everywhere else. -/
def Obligations.LaterObjectDrawsOverEarlier : Prop :=
  ∀ (s : State) (o q : ObjFields) (wt ht wt' ht' : Nat),
    wt ≤ 8 → ht ≤ 8 → wt' ≤ 8 → ht' ≤ 8 → Memory.wf s.canvas → ∀ r c, c < 512 →
    ((s.drawn o wt ht).drawn q wt' ht').canvasCell r c =
      if cellAfterDraw { s with canvas := [] } q wt' ht' r c = 0#8
      then (s.drawn o wt ht).canvasCell r c
      else cellAfterDraw { s with canvas := [] } q wt' ht' r c

/-- R135 (its last sentence derived in the spec): two objects whose non-transparent cells do not meet
leave the same canvas in either order. -/
def Obligations.DisjointDrawsCommute : Prop :=
  ∀ (s : State) (o q : ObjFields) (wt ht wt' ht' : Nat),
    wt ≤ 8 → ht ≤ 8 → wt' ≤ 8 → ht' ≤ 8 → Memory.wf s.canvas →
    (∀ r c, c < 512 → cellAfterDraw { s with canvas := [] } o wt ht r c = 0#8 ∨
      cellAfterDraw { s with canvas := [] } q wt' ht' r c = 0#8) →
    ((s.drawn o wt ht).drawn q wt' ht').canvas = ((s.drawn q wt' ht').drawn o wt ht).canvas

/-! ## RUN as a whole -/

/-- R98, derived in the spec: when the records before `n` run and record `n` is END, RUN ends in IDLE
after `n + 1` steps with OPC past the END, NENT = n, and the canvas the cleared canvas with the records
drawn in order. -/
def Obligations.RunCompositesTheList : Prop :=
  ∀ (s : State) (n : Nat) (r : Record), s.st = .idle → s.script = [] →
    (∀ j < n, s.recordRuns j) → s.listRecord n = some r → r[0] = 0xFF#8 →
    exec .run s = .next s.runAccepted ∧
    runSteps (n + 1) s.runAccepted = .next { s with
      canvas := s.listCanvas n
      opc := BitVec.ofNat 32 (s.osrc.toNat + 5 * n + 5)
      nent := BitVec.ofNat 32 n }

/-- R98, derived in the spec: when the records before `n` run and record `n` does not fit in SRC or has
a tile missing, RUN stops after `n + 1` steps with that fault, FADDR = OPC = OSRC + 5n, NENT = n, the
canvas showing the records before it. -/
def Obligations.RunFaultsAtTheFirstBadRecord : Prop :=
  ∀ (s : State) (n : Nat), s.st = .idle → s.script = [] → (∀ j < n, s.recordRuns j) →
    (s.listRecord n = none →
      runSteps (n + 1) s.runAccepted = .next (faulted { s with
        canvas := s.listCanvas n
        opc := BitVec.ofNat 32 (s.osrc.toNat + 5 * n)
        nent := BitVec.ofNat 32 n } .shortReadOam .run (BitVec.ofNat 32 (s.osrc.toNat + 5 * n)))) ∧
    (∀ r, s.listRecord n = some r → r[0] ≠ 0xFF#8 →
      s.tilesMissing (objFields r) (recordShape r).1 (recordShape r).2 →
      runSteps (n + 1) s.runAccepted = .next (faulted { s with
        canvas := s.listCanvas n
        opc := BitVec.ofNat 32 (s.osrc.toNat + 5 * n)
        nent := BitVec.ofNat 32 n } .tileRange .run (BitVec.ofNat 32 (s.osrc.toNat + 5 * n))))

/-- R98, R110, R138, derived in the spec: from any state in RUN, with no turn of the host's left, the
unit is in IDLE or FAULT after `(SRC_LEN - OPC) div 5 + 1` steps. -/
def Obligations.RunAlwaysEnds : Prop :=
  ∀ s : State, AtRecord s →
    ∃ t, runSteps ((s.srcLen.toNat - s.opc.toNat) / 5 + 1) s = .next t ∧
      (t.st = .idle ∨ t.st = .fault)

/-- R66, R138, derived in the spec: TLOAD has left STATE = TLOAD after `TLEN div 32 + 1` steps. -/
def Obligations.TloadAlwaysEnds : Prop :=
  ∀ s : State, s.st = .idle → s.script = [] →
    ∃ t, runSteps (s.tlen.toNat / 32 + 1) s.tloadAccepted = .next t ∧
      (t.st = .idle ∨ t.st = .fault)

/-- From R134: the result of RUN depends on the tile store, OSRC and SRC only: two units in IDLE that agree
on them agree, at every step of the RUN, on canvas, OPC, NENT and STATE, and on CAUSE, FOP and FADDR
when it has faulted, whatever an earlier RUN left. -/
def Obligations.RunDependsOnItsInputsOnly : Prop :=
  ∀ (s t : State) (k : Nat), s.st = .idle → t.st = .idle → s.script = [] → t.script = [] →
    SameRunInputs s t →
    AgreeOnRunResults (runSteps k s.runAccepted) (runSteps k t.runAccepted)

/-! ## The host -/

/-- R104 and R107 (decision D20): the CMD write in IDLE is the dispatch, and every value but 1 and 2 is the fault
ILLEGAL_CMD with nothing else changed; it is ignored in FAULT and refused while the unit is busy. -/
def Obligations.CommandDispatch : Prop :=
  ∀ (s : State) (c : Word) (rest : List Turn), s.script = .move (.writeReg 0 c) :: rest →
    (s.st = .idle → c = 1#32 → step s = exec .tload { s with script := rest }) ∧
    (s.st = .idle → c = 2#32 → step s = exec .run { s with script := rest }) ∧
    (s.st = .idle → c ≠ 1#32 → c ≠ 2#32 →
      step s = .next (faulted { s with script := rest } .illegalCmd .dispatch 0#32)) ∧
    (s.st = .fault → step s = .next { s with script := rest }) ∧
    (s.st = .tload ∨ s.st = .run → step s = .refused .hostMoveWhileBusy)

/-- The table word placed with `withFetchWord` is the instruction the next step runs (log 22): a record
when it fits below the top of the address space, a command always. -/
def Obligations.PlacedWordRunsNext : Prop :=
  ∀ (s : State) (nbits w : Nat) (i : Instr), decodeTableWord nbits w = some i → Memory.wf s.src →
    (nbits ≠ 32 → s.opc.toNat + 5 < 2 ^ 32) →
    step (s.withFetchWord nbits w) = exec i { s.withFetchWord nbits w with script := s.script }

/-- R102 (decisions D19, D25): register n reads its value, CMD reads 0; STATUS in every state, the others in IDLE
and FAULT; nothing changes but what the host has read. Above 8 there is no register. -/
def Obligations.RegisterReads : Prop :=
  ∀ (s : State) (n : Nat) (rest : List Turn), s.script = .move (.readReg n) :: rest →
    (n = 1 → step s = .next ({ s with script := rest }.reply (.reg s.statusWord))) ∧
    (s.busy = false → ∀ v, [0#32, s.statusWord, s.tsrc, s.tlen, s.osrc, s.nt, s.opc, s.nent, s.faddr][n]? = some v →
      step s = .next ({ s with script := rest }.reply (.reg v))) ∧
    (s.busy = true → n ≠ 1 → n ≤ 8 → step s = .refused .hostMoveWhileBusy) ∧
    (9 ≤ n → step s = .refused (.noSuchRegister n))

/-- R103 (decisions D19, D25): a write in IDLE to TSRC, TLEN or OSRC stores the value and a write to a read-only register is
ignored; every write is ignored in FAULT and refused while the unit is busy. -/
def Obligations.RegisterWrites : Prop :=
  ∀ (s : State) (n : Nat) (v : Word) (rest : List Turn), s.script = .move (.writeReg n v) :: rest →
    (s.st = .idle → n = 2 → step s = .next { s with script := rest, tsrc := v }) ∧
    (s.st = .idle → n = 3 → step s = .next { s with script := rest, tlen := v }) ∧
    (s.st = .idle → n = 4 → step s = .next { s with script := rest, osrc := v }) ∧
    (s.st = .idle → n ∈ [1, 5, 6, 7, 8] → step s = .next { s with script := rest }) ∧
    (s.st = .idle → n = 0 → step s = { s with script := rest }.dispatchCommand v) ∧
    (s.st = .fault → n ≤ 8 → step s = .next { s with script := rest }) ∧
    (s.st = .tload ∨ s.st = .run → n ≤ 8 → step s = .refused .hostMoveWhileBusy) ∧
    (9 ≤ n → step s = .refused (.noSuchRegister n))

/-- R109 (decision D33): the two read ports answer inside their ranges in IDLE and FAULT and are refused outside them;
there is no write port: no move but a command and reset changes the tile store or the canvas. -/
def Obligations.ReadPorts : Prop :=
  (∀ (s : State) (n p : Nat) (rest : List Turn), s.script = .move (.readTile n p) :: rest → s.busy = false →
    (n < s.nt.toNat → p < 64 →
      step s = .next ({ s with script := rest }.reply (.tile (s.tilePixel n p)))) ∧
    (s.nt.toNat ≤ n ∨ 64 ≤ p → step s = .refused (.tilePortRange n p))) ∧
  (∀ (s : State) (r c : Nat) (rest : List Turn), s.script = .move (.readCanvas r c) :: rest → s.busy = false →
    (r < 512 → c < 512 →
      step s = .next ({ s with script := rest }.reply (.canvas (s.canvasCell r c)))) ∧
    (512 ≤ r ∨ 512 ≤ c → step s = .refused (.canvasPortRange r c))) ∧
  (∀ (s t : State) (m : Move), s.hostMove m = .next t → m ≠ .reset → (∀ v, m ≠ .writeReg 0 v) →
    t.tiles = s.tiles ∧ t.canvas = s.canvas)

/-- From R43 and R110: the host changes bytes of SRC while the unit is not busy; every byte of the run takes
its value and every other byte stays. Refused while busy; a byte outside SRC does not exist (log 10). -/
def Obligations.HostChangesSource : Prop :=
  ∀ (s : State) (a : Nat) (bytes : List Byte) (rest : List Turn),
    s.script = .move (.changeSrc a bytes) :: rest → Memory.wf s.src →
    (s.busy = true → step s = .refused .hostMoveWhileBusy) ∧
    (s.busy = false → s.srcLen.toNat < a + bytes.length → step s = .refused (.srcRange a)) ∧
    (s.busy = false → a + bytes.length ≤ s.srcLen.toNat →
      ∃ t, step s = .next t ∧ t = { s with script := rest, src := t.src } ∧
        (∀ k, a ≤ k → k < a + bytes.length → some (t.srcByte k) = bytes[k - a]?) ∧
        (∀ k, k < a ∨ a + bytes.length ≤ k → t.srcByte k = s.srcByte k))

/-- From R110, the column TLOAD or RUN: every host move but a STATUS read and reset is refused. -/
def Obligations.BusyUnitRefusesTheHost : Prop :=
  ∀ (s : State) (m : Move) (rest : List Turn), s.script = .move m :: rest → s.busy = true →
    (m = .readReg 1 → ∃ t, step s = .next t ∧ t = { s with script := rest, replies := t.replies }) ∧
    (m ≠ .readReg 1 → m ≠ .reset → ∃ r, step s = .refused r)

/-- R118 (decision D21): FAULT is left only by reset, and until then no register, no tile and no canvas cell of the
unit changes; reset empties the tile store and clears the canvas. -/
def Obligations.FaultIsLeftOnlyByReset : Prop :=
  (∀ s t : State, s.st = .fault → s.script.head? ≠ some (.move .reset) → step s = .next t →
    t = { s with src := t.src, script := t.script, replies := t.replies }) ∧
  (∀ (s : State) (rest : List Turn), s.st = .fault → s.script = .move .reset :: rest →
    ∃ t, step s = .next t ∧ t.st = .idle ∧ t.cause = .none ∧ t.fop = .none ∧ t.faddr = 0#32 ∧
      t.tiles = [] ∧ t.nt = 0#32 ∧ ∀ r c, t.canvasCell r c = 0#8)

/-! ## Faults -/

/-- R116 (decision D21): what the fault entry writes, with FOP as the rule gives it, and nothing else. -/
def Obligations.FaultEntry : Prop :=
  ∀ (s : State) (c : Cause) (addr : Word),
    s.raise c addr = faulted s c
      (if s.st = .tload ∨ c = .tileCap then .tload else if s.st = .run then .run else .dispatch) addr

/-- R113 (decisions D16, D21): a step that enters FAULT does so by one row of the table of causes, with
its FOP, condition and FADDR, and each row's condition does raise its fault. (The condition
`NT < TLEN div 32` of the first row needs the invariant TilesSound.) -/
def Obligations.EveryFaultIsARowOfTheTable : Prop :=
  (∀ s t : State, s.TilesSound → s.st ≠ .fault → step s = .next t → t.st = .fault →
    (t.cause = .shortReadTile ∧ t.fop = .tload ∧ s.st = .tload ∧
      s.srcLen.toNat < s.tsrc.toNat + 32 * s.nt.toNat + 32 ∧ s.nt.toNat < s.tlen.toNat / 32 ∧
      t.faddr.toNat = s.tsrc.toNat + 32 * s.nt.toNat) ∨
    (t.cause = .shortReadOam ∧ t.fop = .run ∧ s.st = .run ∧
      s.srcLen.toNat < s.opc.toNat + 5 ∧ t.faddr = s.opc) ∨
    (t.cause = .tileRange ∧ t.fop = .run ∧ s.st = .run ∧ t.faddr = s.opc ∧
      s.opc.toNat + 5 ≤ s.srcLen.toNat ∧ TilesMissingAt s (recordFrom s s.opc.toNat)) ∨
    (t.cause = .tileCap ∧ t.fop = .tload ∧ s.st = .idle ∧ s.tileCap < s.tlen.toNat / 32 ∧
      t.faddr = s.tsrc ∧ s.script.head? = some (.move (.writeReg 0 1#32))) ∨
    (t.cause = .illegalCmd ∧ t.fop = .dispatch ∧ s.st = .idle ∧ t.faddr = 0#32 ∧
      ∃ v, s.script.head? = some (.move (.writeReg 0 v)) ∧ v ≠ 1#32 ∧ v ≠ 2#32)) ∧
  (∀ s : State, s.st = .tload → s.script = [] → s.srcLen.toNat < s.tsrc.toNat + 32 * s.nt.toNat + 32 →
    s.nt.toNat < s.tlen.toNat / 32 →
    step s = .next (faulted s .shortReadTile .tload (BitVec.ofNat 32 (s.tsrc.toNat + 32 * s.nt.toNat)))) ∧
  (∀ s : State, AtRecord s → s.srcLen.toNat < s.opc.toNat + 5 →
    step s = .next (faulted s .shortReadOam .run s.opc)) ∧
  (∀ s : State, AtRecord s → s.opc.toNat + 5 ≤ s.srcLen.toNat →
    TilesMissingAt s (recordFrom s s.opc.toNat) →
    step s = .next (faulted s .tileRange .run s.opc)) ∧
  (∀ s : State, s.st = .idle → s.tileCap < s.tlen.toNat / 32 → ∃ t, exec .tload s = .next t ∧
    t.st = .fault ∧ t.cause = .tileCap ∧ t.fop = .tload ∧ t.faddr = s.tsrc) ∧
  (∀ (s : State) (v : Word) (rest : List Turn), s.st = .idle → v ≠ 1#32 → v ≠ 2#32 →
    s.script = .move (.writeReg 0 v) :: rest →
    step s = .next (faulted { s with script := rest } .illegalCmd .dispatch 0#32)) ∧
  [Cause.shortReadTile, .shortReadOam, .tileRange, .tileCap, .illegalCmd].map Cause.code = [1, 2, 3, 4, 5]

/-- From R117: a step of the busy unit that faults changes nothing but STATUS and FADDR. -/
def Obligations.FaultsArePrecise : Prop :=
  ∀ s t : State, s.busy = true → s.script = [] → step s = .next t → t.st = .fault →
    t = { s with st := .fault, cause := t.cause, fop := t.fop, faddr := t.faddr }

/-! ## Reset -/

/-- R31 (decision D26): the state after reset: every register reads 0, the unit is in IDLE and takes no
step by itself, no tile can be read and every canvas cell is 0. The values of SRC, SRC_LEN and TILE_CAP
are the model's (logs 2, 3, 4) and no part of this. -/
def Obligations.ResetStateValues : Prop :=
  State.reset.st = .idle ∧ State.reset.cause = .none ∧ State.reset.fop = .none ∧
  State.reset.statusWord = 0#32 ∧ (∀ r : Reg, State.reset.readReg r = 0#32) ∧
  (∀ n p, State.reset.hostReadTile n p = .refused (.tilePortRange n p)) ∧
  (∀ r c, State.reset.canvasCell r c = 0#8) ∧
  State.reset.unitStep = .next State.reset

/-- R126, R127 (decision D26): a reset, in any state, gives all state of the unit its reset value, a
command under way is abandoned, a fault record erased; SRC, SRC_LEN and TILE_CAP stay. After it the
unit takes no step by itself: nothing happens until the host acts. -/
def Obligations.ResetInAnyState : Prop :=
  (∀ (s : State) (rest : List Turn), s.script = .move .reset :: rest →
    step s = .next { State.reset with
      src := s.src, srcLen := s.srcLen, tileCap := s.tileCap, script := rest, replies := s.replies }) ∧
  (∀ s : State, s.resetUnit.script = [] → step s.resetUnit = .next s.resetUnit)

/-- R128 (decisions D3, D26): no step changes SRC_LEN or TILE_CAP, and none but the host's own change of SRC changes SRC. -/
def Obligations.ParametersAreFixed : Prop :=
  ∀ s t : State, step s = .next t →
    t.srcLen = s.srcLen ∧ t.tileCap = s.tileCap ∧
    ((∀ a bytes, s.script.head? ≠ some (.move (.changeSrc a bytes))) → t.src = s.src)

/-! ## What the commands leave alone -/

/-- From R134 and R82: while RUN is busy no step but a reset changes the tile store, NT, TSRC, TLEN or OSRC. -/
def Obligations.RunLeavesTheTileStore : Prop :=
  ∀ s t : State, s.st = .run → s.script.head? ≠ some (.move .reset) → step s = .next t →
    t.tiles = s.tiles ∧ t.nt = s.nt ∧ t.tsrc = s.tsrc ∧ t.tlen = s.tlen ∧ t.osrc = s.osrc ∧
    t.src = s.src

/-- From R64 and R65: while TLOAD is busy no step but a reset changes the canvas, OPC, NENT, TSRC, TLEN or OSRC. -/
def Obligations.TloadLeavesTheCanvas : Prop :=
  ∀ s t : State, s.st = .tload → s.script.head? ≠ some (.move .reset) → step s = .next t →
    t.canvas = s.canvas ∧ t.opc = s.opc ∧ t.nent = s.nent ∧ t.tsrc = s.tsrc ∧ t.tlen = s.tlen ∧
    t.osrc = s.osrc ∧ t.src = s.src

/-! ## Invariants every step keeps -/

/-- Every step keeps the canonical form of the three memories. -/
def Obligations.StepKeepsMemoryForm : Prop :=
  ∀ s t : State, s.MemorySound → step s = .next t → t.MemorySound

/-- R19 and R84, derived in the spec: every step keeps each canvas cell 0 or of a colour other than
slot 0 of a bank, and the border rows and columns 0. -/
def Obligations.StepKeepsCanvasColours : Prop :=
  ∀ s t : State, s.CanvasSound → step s = .next t → t.CanvasSound

/-- R20 (decisions D19, D21): the codes and the layout of STATUS, its reset value, and every step keeps
CAUSE and FOP 0 outside FAULT and non-zero in it. -/
def Obligations.StatusLayoutAndFields : Prop :=
  [UnitState.idle, .tload, .run, .fault].map UnitState.code = [0, 1, 2, 3] ∧
  [Cause.none, .shortReadTile, .shortReadOam, .tileRange, .tileCap, .illegalCmd].map Cause.code =
    [0, 1, 2, 3, 4, 5] ∧
  [FaultOp.none, .tload, .run, .dispatch].map FaultOp.code = [0, 1, 2, 3] ∧
  State.reset.statusWord = 0#32 ∧ State.reset.StatusSound ∧
  (∀ s : State,
    s.statusWord.toNat % 4 = s.st.code ∧ s.statusWord.toNat / 4 % 4 = 0 ∧
    s.statusWord.toNat / 16 % 16 = s.cause.code ∧ s.statusWord.toNat / 256 % 4 = s.fop.code ∧
    s.statusWord.toNat / 1024 = 0) ∧
  (∀ s t : State, s.StatusSound → step s = .next t → t.StatusSound)

/-- From R17, R25 and R65: every step keeps NT at most TILE_CAP, no tile at or above NT, and a busy TLOAD
inside its region. -/
def Obligations.StepKeepsTileStoreBounds : Prop :=
  ∀ s t : State, s.TilesSound → step s = .next t → t.TilesSound

/-- From R15 and R26: every step keeps OPC = OSRC + 5 × NENT while RUN is busy, without wrap, and the counted
records inside SRC. (The bound is log 20's reading of R26, which the spec marks as derived.) -/
def Obligations.StepKeepsTheCursor : Prop :=
  ∀ s t : State, s.CursorSound → step s = .next t → t.CursorSound

/-- The reset state meets every invariant. -/
def Obligations.ResetStateIsSound : Prop := State.reset.Sound
end

