-- ==== Sys2Proof/Laws/Mem.lean ====
section
/-! SUPPORT. What the memory operations do, said once: what a read gives after a write or an overlay,
and that every operation keeps the canonical form. -/

namespace Sys2Proof
namespace Machine

variable {α : Type} {d : α}

/-! ## Reading -/

@[simp] theorem Mem.read_nil (d : α) (a : Nat) : Mem.read d ([] : Mem α) a = d := rfl

@[simp] theorem Mem.read_cons (d : α) (k : Nat) (v : α) (m : Mem α) (a : Nat) :
    Mem.read d ((k, v) :: m) a = if k = a then v else Mem.read d m a := rfl

theorem Mem.read_eq_default_of_forall_ne (d : α) (m : Mem α) (a : Nat) (h : ∀ c ∈ m, c.1 ≠ a) :
    Mem.read d m a = d := by
  induction m with
  | nil => rfl
  | cons c m ih =>
    obtain ⟨k, v⟩ := c
    rw [Mem.read_cons, if_neg (h (k, v) List.mem_cons_self)]
    exact ih fun c hc => h c (List.mem_cons_of_mem _ hc)

/-- In a canonical memory a listed pair is what is read. -/
theorem Mem.read_of_mem {m : Mem α} (h : m.Pairwise (fun p q => p.1 < q.1)) {a : Nat} {v : α}
    (hm : (a, v) ∈ m) : Mem.read d m a = v := by
  induction m with
  | nil => cases hm
  | cons c m ih =>
    obtain ⟨k, x⟩ := c
    rw [List.pairwise_cons] at h
    rcases List.mem_cons.1 hm with heq | htail
    · cases heq; simp
    · have hk : k ≠ a := (h.1 _ htail).ne
      rw [Mem.read_cons, if_neg hk]
      exact ih h.2 htail

/-- A read that is not the default comes from a listed pair. -/
theorem Mem.mem_of_read_ne {m : Mem α} {a : Nat} (h : Mem.read d m a ≠ d) :
    (a, Mem.read d m a) ∈ m := by
  induction m with
  | nil => exact absurd rfl h
  | cons c m ih =>
    obtain ⟨k, x⟩ := c
    rw [Mem.read_cons] at h ⊢
    by_cases hk : k = a
    · simp [hk]
    · rw [if_neg hk] at h ⊢
      exact List.mem_cons_of_mem _ (ih h)

/-- Whether a key is listed, at a cons. -/
theorem Mem.exists_key_cons (k : Nat) (x : α) (m : Mem α) (a : Nat) :
    (∃ c ∈ (k, x) :: m, c.1 = a) ↔ k = a ∨ ∃ c ∈ m, c.1 = a := by
  simp only [List.mem_cons, exists_eq_or_imp]

theorem Mem.read_append (d : α) (m n : Mem α) (a : Nat) :
    Mem.read d (m ++ n) a = if ∃ c ∈ m, c.1 = a then Mem.read d m a else Mem.read d n a := by
  induction m with
  | nil => simp
  | cons c m ih =>
    obtain ⟨k, x⟩ := c
    rw [List.cons_append, Mem.read_cons, Mem.read_cons, ih]
    simp only [Mem.exists_key_cons]
    by_cases hk : k = a <;> simp only [hk, if_true, if_false, true_or, false_or]

/-- Two canonical memories that read alike are equal. -/
theorem Mem.ext_of_wf {m n : Mem α} (hm : Mem.wf d m) (hn : Mem.wf d n)
    (h : ∀ a, Mem.read d m a = Mem.read d n a) : m = n := by
  have sub : ∀ {m n : Mem α}, Mem.wf d m → Mem.wf d n → (∀ a, Mem.read d m a = Mem.read d n a) →
      ∀ c ∈ m, c ∈ n := by
    intro m n hm hn h c hc
    obtain ⟨a, v⟩ := c
    have hr : Mem.read d m a = v := Mem.read_of_mem hm.1 hc
    have hv : Mem.read d n a ≠ d := by rw [← h a, hr]; exact hm.2 _ hc
    have := Mem.mem_of_read_ne hv
    rwa [← h a, hr] at this
  have nodup : ∀ {m : Mem α}, Mem.wf d m → m.Nodup := fun hm =>
    hm.1.imp fun hlt heq => by rw [heq] at hlt; exact lt_irrefl _ hlt
  have hp : m.Perm n := (List.perm_ext_iff_of_nodup (nodup hm) (nodup hn)).2 fun c =>
    ⟨sub hm hn h c, sub hn hm (fun a => (h a).symm) c⟩
  exact hp.eq_of_pairwise (fun _ _ _ _ h1 h2 => absurd h2 (lt_asymm h1)) hm.1 hn.1

/-! ## Writing -/

variable [DecidableEq α]

/-- Keys of a written memory: the written key and old keys. -/
theorem Mem.mem_write {m : Mem α} {a : Nat} {v : α} {c : Nat × α} (h : c ∈ Mem.write d m a v) :
    c = (a, v) ∧ v ≠ d ∨ c ∈ m := by
  induction m with
  | nil =>
    unfold Mem.write at h
    split at h
    · cases h
    · exact .inl ⟨by simpa using h, ‹_›⟩
  | cons e m ih =>
    obtain ⟨k, x⟩ := e
    unfold Mem.write at h
    by_cases hk : k < a
    · rw [if_pos hk] at h
      rcases List.mem_cons.1 h with rfl | h
      · exact .inr List.mem_cons_self
      · exact (ih h).imp id (List.mem_cons_of_mem _)
    · rw [if_neg hk] at h
      have htail : ∀ {c : Nat × α}, c ∈ (if k = a then m else (k, x) :: m) → c ∈ (k, x) :: m := by
        intro c hc
        split at hc
        · exact List.mem_cons_of_mem _ hc
        · exact hc
      by_cases hv : v = d
      · exact .inr (htail (by simpa [hv] using h))
      · simp only [if_neg hv] at h
        rcases List.mem_cons.1 h with rfl | h
        · exact .inl ⟨rfl, hv⟩
        · exact .inr (htail h)

/-- A write keeps the canonical form. -/
theorem Mem.wf_write {m : Mem α} (h : Mem.wf d m) (a : Nat) (v : α) :
    Mem.wf d (Mem.write d m a v) := by
  refine ⟨?_, fun c hc => ?_⟩
  · obtain ⟨h, -⟩ := h
    induction m with
    | nil => unfold Mem.write; split <;> simp
    | cons e m ih =>
      obtain ⟨k, x⟩ := e
      rw [List.pairwise_cons] at h
      unfold Mem.write
      by_cases hk : k < a
      · rw [if_pos hk, List.pairwise_cons]
        refine ⟨fun c hc => ?_, ih h.2⟩
        rcases Mem.mem_write hc with ⟨rfl, -⟩ | hc
        · exact hk
        · exact h.1 c hc
      · rw [if_neg hk]
        have hle : a ≤ k := Nat.le_of_not_lt hk
        by_cases hka : k = a
        · subst hka
          by_cases hv : v = d <;> simp [hv, h.2]
          exact fun b y hb => h.1 _ hb
        · have hlt : a < k := lt_of_le_of_ne hle (Ne.symm hka)
          by_cases hv : v = d <;> simp [hv, hka, h.2]
          · exact fun b y hb => h.1 _ hb
          · exact ⟨⟨hlt, fun b y hb => hlt.trans (h.1 _ hb)⟩, fun b y hb => h.1 _ hb⟩
  · rcases Mem.mem_write hc with ⟨rfl, hv⟩ | hc
    · exact hv
    · exact h.2 c hc

/-- A read after a write: the written key gives the value, every other key what it gave. -/
theorem Mem.read_write {m : Mem α} (h : m.Pairwise (fun p q => p.1 < q.1)) (a b : Nat) (v : α) :
    Mem.read d (Mem.write d m a v) b = if a = b then v else Mem.read d m b := by
  induction m with
  | nil =>
    unfold Mem.write
    by_cases hv : v = d <;> simp [hv]
  | cons e m ih =>
    obtain ⟨k, x⟩ := e
    rw [List.pairwise_cons] at h
    unfold Mem.write
    by_cases hk : k < a
    · rw [if_pos hk, Mem.read_cons, Mem.read_cons, ih h.2]
      by_cases hkb : k = b <;> by_cases hab : a = b <;> simp [hkb, hab]
      omega
    · rw [if_neg hk]
      have hgone : ∀ c ∈ m, a ≤ k → c.1 ≠ a := fun c hc hle => by have := h.1 c hc; omega
      by_cases hka : k = a
      · subst hka
        by_cases hkb : k = b
        · subst hkb
          by_cases hv : v = d
          · simpa [hv] using
              Mem.read_eq_default_of_forall_ne d m k fun c hc => hgone c hc le_rfl
          · simp [hv]
        · by_cases hv : v = d <;> simp [hv, hkb]
      · by_cases hv : v = d
        · by_cases hab : a = b
          · subst hab
            simpa [hv, hka] using
              Mem.read_eq_default_of_forall_ne d m a fun c hc => hgone c hc (by omega)
          · simp [hv, hka, hab]
        · by_cases hab : a = b <;> simp [hv, hka, hab]

theorem Memory.wf_writeBytes {m : Memory} (h : Memory.wf m) (a : Nat) (bs : List Byte) :
    Memory.wf (Mem.writeBytes m a bs) := by
  induction bs generalizing m a with
  | nil => exact h
  | cons b bs ih => exact ih (Mem.wf_write h a b) (a + 1)

/-- A read after a run of bytes has been written: inside it the byte, outside it what it gave. -/
theorem Memory.read_writeBytes {m : Memory} (h : Memory.wf m) (a b : Nat) (bs : List Byte) :
    Mem.read 0#8 (Mem.writeBytes m a bs) b =
      if a ≤ b ∧ b < a + bs.length then bs.getD (b - a) 0#8 else Mem.read 0#8 m b := by
  induction bs generalizing m a with
  | nil => simp [Mem.writeBytes]
  | cons x bs ih =>
    rw [Mem.writeBytes, ih (Mem.wf_write h a x), Mem.read_write h.1]
    simp only [List.length_cons]
    by_cases hab : a = b
    · subst hab
      simp
    · by_cases hin : a ≤ b ∧ b < a + (bs.length + 1)
      · rw [if_pos ⟨by omega, by omega⟩, if_pos hin]
        have : b - a = (b - (a + 1)) + 1 := by omega
        rw [this, List.getD_cons_succ]
      · rw [if_neg (by omega), if_neg hin, if_neg hab]

/-- Keys of a memory after a run of bytes: old keys and keys of the run. -/
theorem Memory.mem_writeBytes {m : Memory} {a : Nat} {bs : List Byte} {c : Nat × Byte}
    (h : c ∈ Mem.writeBytes m a bs) : c ∈ m ∨ a ≤ c.1 ∧ c.1 < a + bs.length := by
  induction bs generalizing m a with
  | nil => exact .inl h
  | cons x bs ih =>
    rcases ih h with h | h
    · rcases Mem.mem_write h with ⟨rfl, -⟩ | h
      · exact .inr ⟨le_rfl, by simp⟩
      · exact .inl h
    · refine .inr ?_
      simp only [List.length_cons]
      omega

/-! ## Overlay -/

omit [DecidableEq α]

/-- Every pair of an overlay comes from one of the two memories. -/
theorem Mem.mem_overlay {new old : Mem α} {c : Nat × α} (h : c ∈ Mem.overlay new old) :
    c ∈ new ∨ c ∈ old := by
  induction new generalizing old with
  | nil => exact .inr h
  | cons e new ih =>
    obtain ⟨a, v⟩ := e
    unfold Mem.overlay at h
    rcases List.mem_append.1 h with h | h
    · exact .inr ((List.takeWhile_sublist _).mem h)
    · rcases List.mem_cons.1 h with rfl | h
      · exact .inl List.mem_cons_self
      · rcases ih h with h | h
        · exact .inl (List.mem_cons_of_mem _ h)
        · exact .inr ((List.dropWhile_sublist _).mem h)

theorem Mem.key_lt_of_mem_takeWhile {m : Mem α} {a : Nat} {c : Nat × α}
    (h : c ∈ m.takeWhile (fun c => decide (c.1 < a))) : c.1 < a := by
  simpa using List.mem_takeWhile_imp h

/-- In a memory with rising keys, what is left after dropping the keys up to `a` lies above `a`. -/
theorem Mem.key_gt_of_mem_dropWhile {m : Mem α} (h : m.Pairwise (fun p q => p.1 < q.1)) {a : Nat}
    {c : Nat × α} (hc : c ∈ m.dropWhile (fun c => decide (c.1 ≤ a))) : a < c.1 := by
  induction m with
  | nil => cases hc
  | cons e m ih =>
    rw [List.pairwise_cons] at h
    rw [List.dropWhile_cons] at hc
    split at hc
    · exact ih h.2 hc
    · rename_i hle
      have hlt : a < e.1 := by simpa using hle
      rcases List.mem_cons.1 hc with rfl | hc
      · exact hlt
      · exact hlt.trans (h.1 c hc)

/-- The keys of an overlay rise when those of both memories do. -/
theorem Mem.sorted_overlay {new old : Mem α} (hn : new.Pairwise (fun p q => p.1 < q.1))
    (ho : old.Pairwise (fun p q => p.1 < q.1)) :
    (Mem.overlay new old).Pairwise (fun p q => p.1 < q.1) := by
  induction new generalizing old with
  | nil => exact ho
  | cons e new ih =>
    obtain ⟨a, v⟩ := e
    rw [List.pairwise_cons] at hn
    unfold Mem.overlay
    have hd := ho.sublist (List.dropWhile_sublist (fun c : Nat × α => decide (c.1 ≤ a)))
    have habove : ∀ c ∈ Mem.overlay new (old.dropWhile fun c => decide (c.1 ≤ a)), a < c.1 := by
      intro c hc
      rcases Mem.mem_overlay hc with hc | hc
      · exact hn.1 c hc
      · exact Mem.key_gt_of_mem_dropWhile ho hc
    rw [List.pairwise_append]
    refine ⟨ho.sublist (List.takeWhile_sublist _), List.pairwise_cons.2 ⟨habove, ih hn.2 hd⟩, ?_⟩
    intro c hc c' hc'
    have hlt := Mem.key_lt_of_mem_takeWhile hc
    rcases List.mem_cons.1 hc' with rfl | hc'
    · exact hlt
    · exact hlt.trans (habove c' hc')

/-- An overlay keeps the canonical form. -/
theorem Mem.wf_overlay {new old : Mem α} (hn : Mem.wf d new) (ho : Mem.wf d old) :
    Mem.wf d (Mem.overlay new old) :=
  ⟨Mem.sorted_overlay hn.1 ho.1, fun c hc => (Mem.mem_overlay hc).elim (hn.2 c) (ho.2 c)⟩

/-- Dropping keys below `a` is invisible at a key from `a` on. -/
theorem Mem.read_takeWhile_dropWhile {m : Mem α} (h : m.Pairwise (fun p q => p.1 < q.1)) {a b : Nat} :
    (b < a → Mem.read d (m.takeWhile fun c => decide (c.1 < a)) b = Mem.read d m b) ∧
    (a < b → Mem.read d (m.dropWhile fun c => decide (c.1 ≤ a)) b = Mem.read d m b) := by
  induction m with
  | nil => simp
  | cons e m ih =>
    obtain ⟨k, x⟩ := e
    rw [List.pairwise_cons] at h
    constructor
    · intro hb
      rw [List.takeWhile_cons]
      by_cases hk : k < a
      · simp [hk, (ih h.2).1 hb]
      · have hne : ∀ c ∈ m, c.1 ≠ b := fun c hc => by have := h.1 c hc; simp at this; omega
        simp [hk, Mem.read_eq_default_of_forall_ne d m b hne]
        omega
    · intro hb
      rw [List.dropWhile_cons]
      by_cases hk : k ≤ a
      · have : k ≠ b := by omega
        simp [hk, this, (ih h.2).2 hb]
      · simp [hk]

/-- A read of an overlay: a key listed in `new` gives its value, every other key what `old` gave. -/
theorem Mem.read_overlay {new old : Mem α} (hn : new.Pairwise (fun p q => p.1 < q.1))
    (ho : old.Pairwise (fun p q => p.1 < q.1)) (b : Nat) :
    Mem.read d (Mem.overlay new old) b =
      if ∃ c ∈ new, c.1 = b then Mem.read d new b else Mem.read d old b := by
  induction new generalizing old with
  | nil => simp [Mem.overlay]
  | cons e new ih =>
    obtain ⟨a, v⟩ := e
    rw [List.pairwise_cons] at hn
    have hd := ho.sublist (List.dropWhile_sublist (fun c : Nat × α => decide (c.1 ≤ a)))
    unfold Mem.overlay
    rw [Mem.read_append, Mem.read_cons, ih hn.2 hd, Mem.read_cons]
    rcases lt_trichotomy a b with hab | rfl | hba
    · have hno : ¬ ∃ c ∈ old.takeWhile (fun c => decide (c.1 < a)), c.1 = b := by
        rintro ⟨c, hc, rfl⟩
        exact absurd (Mem.key_lt_of_mem_takeWhile hc) (by omega)
      rw [if_neg hno, if_neg hab.ne, (Mem.read_takeWhile_dropWhile ho).2 hab]
      simp only [Mem.exists_key_cons, hab.ne, false_or, if_false]
    · have hno : ¬ ∃ c ∈ old.takeWhile (fun c => decide (c.1 < a)), c.1 = a := by
        rintro ⟨c, hc, rfl⟩
        exact absurd (Mem.key_lt_of_mem_takeWhile hc) (by omega)
      simp [hno]
    · have hno : ¬ ∃ c ∈ (a, v) :: new, c.1 = b := by
        rintro ⟨c, hc, rfl⟩
        rcases List.mem_cons.1 hc with rfl | hc
        · exact absurd hba (lt_irrefl _)
        · exact absurd (hn.1 c hc) (by simp; omega)
      have hno' : ¬ ∃ c ∈ new, c.1 = b := fun ⟨c, hc, e⟩ => hno ⟨c, List.mem_cons_of_mem _ hc, e⟩
      have hne : a ≠ b := by omega
      rw [if_neg hno, if_neg hne, if_neg hno', (Mem.read_takeWhile_dropWhile ho).1 hba]
      split
      · rfl
      · rename_i h
        rw [← (Mem.read_takeWhile_dropWhile ho).1 hba,
          Mem.read_eq_default_of_forall_ne d (old.takeWhile _) b fun c hc e => h ⟨c, hc, e⟩]
        refine Mem.read_eq_default_of_forall_ne d _ b fun c hc => ?_
        have := Mem.key_gt_of_mem_dropWhile ho hc
        omega

end Machine
end Sys2Proof
end

