-- ==== Sys2Proof/Laws/Draw.lean ====
section
/-! SUPPORT. What drawing an object does to the canvas: the object lies inside the canvas (R84), its
write set is canonical, and the cells after drawing (R93, R99). -/

namespace Sys2Proof
namespace Machine

/-! ## Sizes and places -/

/-- No shape is larger than 8 × 8 tiles (R51, R77). -/
theorem shapeOf_le (sz sh : Nibble) : (shapeOf sz sh).1 ≤ 8 ∧ (shapeOf sz sh).2 ≤ 8 := by
  revert sz sh; decide

/-- A signed byte lies between -128 and 127 (R47). -/
theorem sext8_bounds (b : Byte) : -128 ≤ sext8 b ∧ sext8 b ≤ 127 := by
  unfold sext8
  have h1 := BitVec.le_toInt b
  have h2 := BitVec.toInt_lt (x := b)
  constructor <;> omega

/-- Rows of an object: consecutive, from 128 on, and inside the canvas (R84). -/
theorem canvasRow_spec (o : ObjFields) (sy : Nat) :
    canvasRow o sy = canvasRow o 0 + sy ∧ 128 ≤ canvasRow o 0 ∧ canvasRow o 0 ≤ 383 := by
  have := sext8_bounds o.y
  unfold canvasRow Config.originY
  omega

/-- Columns of an object: consecutive, from 128 on, and inside the canvas (R84). -/
theorem canvasColumn_spec (o : ObjFields) (sx : Nat) :
    canvasColumn o sx = canvasColumn o 0 + sx ∧ 128 ≤ canvasColumn o 0 ∧ canvasColumn o 0 ≤ 383 := by
  have := sext8_bounds o.x
  unfold canvasColumn Config.originX
  omega

/-- The key of an object's pixel. -/
def pixelKey (o : ObjFields) (sy sx : Nat) : Nat := canvasKey (canvasRow o sy) (canvasColumn o sx)

theorem pixelKey_eq (o : ObjFields) (sy sx : Nat) :
    pixelKey o sy sx = 512 * (canvasRow o 0 + sy) + (canvasColumn o 0 + sx) := by
  rw [pixelKey, canvasKey, (canvasRow_spec o sy).1, (canvasColumn_spec o sx).1]

/-- Two pixels of one object never meet on a cell (R93). -/
theorem pixelKey_injective (o : ObjFields) {sy sx sy' sx' : Nat} (hx : sx < 64) (hx' : sx' < 64)
    (h : pixelKey o sy sx = pixelKey o sy' sx') : sy = sy' ∧ sx = sx' := by
  rw [pixelKey_eq, pixelKey_eq] at h
  have := (canvasColumn_spec o 0).2
  omega

/-! ## The write set -/

variable (s : State) (o : ObjFields) (wt ht : Nat)

/-- Membership in the write set: a pixel of the object that is not 0, at its cell (R93). -/
theorem State.mem_writeSet {c : Host.Cell} :
    c ∈ s.writeSet o wt ht ↔
      ∃ sy < 8 * ht, ∃ sx < 8 * wt, s.flippedPixel o wt ht sx sy ≠ 0#8 ∧
        c = (pixelKey o sy sx, s.flippedPixel o wt ht sx sy) := by
  unfold State.writeSet State.pixelWrite pixelKey
  simp only [List.mem_flatMap, List.mem_filterMap, List.mem_range]
  constructor
  · rintro ⟨sy, hy, sx, hx, h⟩
    split at h
    · cases h
    · exact ⟨sy, hy, sx, hx, ‹_›, by simpa using h.symm⟩
  · rintro ⟨sy, hy, sx, hx, hne, rfl⟩
    exact ⟨sy, hy, sx, hx, by simp [hne]⟩

theorem pairwise_flatMap_range {α : Type} (R : α → α → Prop) (f : Nat → List α) (n : Nat)
    (hin : ∀ i, (f i).Pairwise R) (hout : ∀ i j, i < j → ∀ a ∈ f i, ∀ b ∈ f j, R a b) :
    ((List.range n).flatMap f).Pairwise R := by
  induction n with
  | zero => simp
  | succ n ih =>
    rw [List.range_succ, List.flatMap_append, List.pairwise_append]
    refine ⟨ih, by simpa using hin n, ?_⟩
    intro a ha b hb
    obtain ⟨i, hi, ha⟩ := List.mem_flatMap.1 ha
    exact hout i n (List.mem_range.1 hi) a ha b (by simpa using hb)

/-- The write set is canonical: its keys rise, and it lists no 0. -/
theorem State.wf_writeSet (hw : wt ≤ 8) : Memory.wf (s.writeSet o wt ht) := by
  refine ⟨?_, fun c hc => ?_⟩
  · have hcol := (canvasColumn_spec o 0).2
    have key : ∀ (sy sx : Nat) (c : Host.Cell), s.pixelWrite o wt ht sy sx = some c →
        c.1 = pixelKey o sy sx := by
      intro sy sx c h
      unfold State.pixelWrite at h
      split at h
      · cases h
      · cases h; rfl
    refine pairwise_flatMap_range _ _ _ (fun sy => ?_) ?_
    · rw [List.pairwise_filterMap]
      refine List.pairwise_lt_range.imp fun {sx sx'} hlt c hc c' hc' => ?_
      rw [key _ _ _ hc, key _ _ _ hc', pixelKey_eq, pixelKey_eq]
      omega
    · intro sy sy' hlt c hc c' hc'
      obtain ⟨sx, hsx, hc⟩ := List.mem_filterMap.1 hc
      obtain ⟨sx', hsx', hc'⟩ := List.mem_filterMap.1 hc'
      rw [key _ _ _ hc, key _ _ _ hc', pixelKey_eq, pixelKey_eq]
      have := List.mem_range.1 hsx
      have := List.mem_range.1 hsx'
      omega
  · obtain ⟨sy, -, sx, -, hne, rfl⟩ := (s.mem_writeSet o wt ht).1 hc
    exact hne

/-- The canvas after drawing is canonical. -/
theorem State.wf_composited (hw : wt ≤ 8) (h : Memory.wf s.canvas) :
    Memory.wf (s.composited o wt ht) :=
  Mem.wf_overlay (s.wf_writeSet o wt ht hw) h

/-- At a pixel of the object the canvas takes the pixel, unless it is 0 (R93). -/
theorem State.read_composited_inside (hw : wt ≤ 8) (h : Memory.wf s.canvas) {sy sx : Nat}
    (hy : sy < 8 * ht) (hx : sx < 8 * wt) :
    Mem.read 0#8 (s.composited o wt ht) (pixelKey o sy sx) =
      if s.flippedPixel o wt ht sx sy = 0#8 then Mem.read 0#8 s.canvas (pixelKey o sy sx)
      else s.flippedPixel o wt ht sx sy := by
  have hwf := s.wf_writeSet o wt ht hw
  rw [State.composited, Mem.read_overlay hwf.1 h.1]
  by_cases hz : s.flippedPixel o wt ht sx sy = 0#8
  · rw [if_pos hz, if_neg]
    rintro ⟨c, hc, he⟩
    obtain ⟨sy', -, sx', hx', hne, rfl⟩ := (s.mem_writeSet o wt ht).1 hc
    obtain ⟨rfl, rfl⟩ := pixelKey_injective o (by omega) (by omega) he
    exact hne hz
  · have hm : (pixelKey o sy sx, s.flippedPixel o wt ht sx sy) ∈ s.writeSet o wt ht :=
      (s.mem_writeSet o wt ht).2 ⟨sy, hy, sx, hx, hz, rfl⟩
    rw [if_neg hz, if_pos ⟨_, hm, rfl⟩, Mem.read_of_mem hwf.1 hm]

/-- Off the object the canvas is unchanged (R93). -/
theorem State.read_composited_outside (hw : wt ≤ 8) (h : Memory.wf s.canvas) {a : Nat}
    (ha : ∀ sy < 8 * ht, ∀ sx < 8 * wt, a ≠ pixelKey o sy sx) :
    Mem.read 0#8 (s.composited o wt ht) a = Mem.read 0#8 s.canvas a := by
  rw [State.composited, Mem.read_overlay (s.wf_writeSet o wt ht hw).1 h.1, if_neg]
  rintro ⟨c, hc, rfl⟩
  obtain ⟨sy, hy, sx, hx, -, rfl⟩ := (s.mem_writeSet o wt ht).1 hc
  exact ha sy hy sx hx rfl

/-- Every pair of the canvas after drawing was there before or is a pixel of the object. -/
theorem State.mem_composited {c : Host.Cell} (h : c ∈ s.composited o wt ht) :
    c ∈ s.writeSet o wt ht ∨ c ∈ s.canvas :=
  Mem.mem_overlay h

end Machine
end Sys2Proof
end

