-- ==== Sys2Proof/Laws/State.lean ====
section
/-! SUPPORT. One lemma per field per named update of the state, so that no proof unfolds an update. -/

namespace Sys2Proof
namespace Machine

variable (s : State)

/-! ## The reset state -/

@[simp] theorem State.reset_st : State.reset.st = .idle := rfl
@[simp] theorem State.reset_cause : State.reset.cause = .none := rfl
@[simp] theorem State.reset_fop : State.reset.fop = .none := rfl
@[simp] theorem State.reset_tsrc : State.reset.tsrc = 0#32 := rfl
@[simp] theorem State.reset_tlen : State.reset.tlen = 0#32 := rfl
@[simp] theorem State.reset_osrc : State.reset.osrc = 0#32 := rfl
@[simp] theorem State.reset_nt : State.reset.nt = 0#32 := rfl
@[simp] theorem State.reset_opc : State.reset.opc = 0#32 := rfl
@[simp] theorem State.reset_nent : State.reset.nent = 0#32 := rfl
@[simp] theorem State.reset_faddr : State.reset.faddr = 0#32 := rfl
@[simp] theorem State.reset_tiles : State.reset.tiles = [] := rfl
@[simp] theorem State.reset_canvas : State.reset.canvas = [] := rfl
@[simp] theorem State.reset_src : State.reset.src = [] := rfl
@[simp] theorem State.reset_srcLen : State.reset.srcLen = Config.resetSrcLen := rfl
@[simp] theorem State.reset_tileCap : State.reset.tileCap = Config.resetTileCap := rfl
@[simp] theorem State.reset_script : State.reset.script = [] := rfl
@[simp] theorem State.reset_replies : State.reset.replies = [] := rfl

/-! ## raise -/

@[simp] theorem State.raise_st (c : Cause) (addr : Word) :
    (s.raise c addr).st = .fault := rfl
@[simp] theorem State.raise_cause (c : Cause) (addr : Word) :
    (s.raise c addr).cause = c := rfl
@[simp] theorem State.raise_fop (c : Cause) (addr : Word) :
    (s.raise c addr).fop = faultOp s.st c := rfl
@[simp] theorem State.raise_tsrc (c : Cause) (addr : Word) :
    (s.raise c addr).tsrc = s.tsrc := rfl
@[simp] theorem State.raise_tlen (c : Cause) (addr : Word) :
    (s.raise c addr).tlen = s.tlen := rfl
@[simp] theorem State.raise_osrc (c : Cause) (addr : Word) :
    (s.raise c addr).osrc = s.osrc := rfl
@[simp] theorem State.raise_nt (c : Cause) (addr : Word) :
    (s.raise c addr).nt = s.nt := rfl
@[simp] theorem State.raise_opc (c : Cause) (addr : Word) :
    (s.raise c addr).opc = s.opc := rfl
@[simp] theorem State.raise_nent (c : Cause) (addr : Word) :
    (s.raise c addr).nent = s.nent := rfl
@[simp] theorem State.raise_faddr (c : Cause) (addr : Word) :
    (s.raise c addr).faddr = addr := rfl
@[simp] theorem State.raise_tiles (c : Cause) (addr : Word) :
    (s.raise c addr).tiles = s.tiles := rfl
@[simp] theorem State.raise_canvas (c : Cause) (addr : Word) :
    (s.raise c addr).canvas = s.canvas := rfl
@[simp] theorem State.raise_src (c : Cause) (addr : Word) :
    (s.raise c addr).src = s.src := rfl
@[simp] theorem State.raise_srcLen (c : Cause) (addr : Word) :
    (s.raise c addr).srcLen = s.srcLen := rfl
@[simp] theorem State.raise_tileCap (c : Cause) (addr : Word) :
    (s.raise c addr).tileCap = s.tileCap := rfl
@[simp] theorem State.raise_script (c : Cause) (addr : Word) :
    (s.raise c addr).script = s.script := rfl
@[simp] theorem State.raise_replies (c : Cause) (addr : Word) :
    (s.raise c addr).replies = s.replies := rfl

/-! ## resetUnit -/

@[simp] theorem State.resetUnit_st :
    s.resetUnit.st = .idle := rfl
@[simp] theorem State.resetUnit_cause :
    s.resetUnit.cause = .none := rfl
@[simp] theorem State.resetUnit_fop :
    s.resetUnit.fop = .none := rfl
@[simp] theorem State.resetUnit_tsrc :
    s.resetUnit.tsrc = 0#32 := rfl
@[simp] theorem State.resetUnit_tlen :
    s.resetUnit.tlen = 0#32 := rfl
@[simp] theorem State.resetUnit_osrc :
    s.resetUnit.osrc = 0#32 := rfl
@[simp] theorem State.resetUnit_nt :
    s.resetUnit.nt = 0#32 := rfl
@[simp] theorem State.resetUnit_opc :
    s.resetUnit.opc = 0#32 := rfl
@[simp] theorem State.resetUnit_nent :
    s.resetUnit.nent = 0#32 := rfl
@[simp] theorem State.resetUnit_faddr :
    s.resetUnit.faddr = 0#32 := rfl
@[simp] theorem State.resetUnit_tiles :
    s.resetUnit.tiles = [] := rfl
@[simp] theorem State.resetUnit_canvas :
    s.resetUnit.canvas = [] := rfl
@[simp] theorem State.resetUnit_src :
    s.resetUnit.src = s.src := rfl
@[simp] theorem State.resetUnit_srcLen :
    s.resetUnit.srcLen = s.srcLen := rfl
@[simp] theorem State.resetUnit_tileCap :
    s.resetUnit.tileCap = s.tileCap := rfl
@[simp] theorem State.resetUnit_script :
    s.resetUnit.script = s.script := rfl
@[simp] theorem State.resetUnit_replies :
    s.resetUnit.replies = s.replies := rfl

/-! ## advance -/

@[simp] theorem State.advance_st :
    s.advance.st = s.st := rfl
@[simp] theorem State.advance_cause :
    s.advance.cause = s.cause := rfl
@[simp] theorem State.advance_fop :
    s.advance.fop = s.fop := rfl
@[simp] theorem State.advance_tsrc :
    s.advance.tsrc = s.tsrc := rfl
@[simp] theorem State.advance_tlen :
    s.advance.tlen = s.tlen := rfl
@[simp] theorem State.advance_osrc :
    s.advance.osrc = s.osrc := rfl
@[simp] theorem State.advance_nt :
    s.advance.nt = s.nt := rfl
@[simp] theorem State.advance_opc :
    s.advance.opc = s.opc + 5#32 := rfl
@[simp] theorem State.advance_nent :
    s.advance.nent = s.nent := rfl
@[simp] theorem State.advance_faddr :
    s.advance.faddr = s.faddr := rfl
@[simp] theorem State.advance_tiles :
    s.advance.tiles = s.tiles := rfl
@[simp] theorem State.advance_canvas :
    s.advance.canvas = s.canvas := rfl
@[simp] theorem State.advance_src :
    s.advance.src = s.src := rfl
@[simp] theorem State.advance_srcLen :
    s.advance.srcLen = s.srcLen := rfl
@[simp] theorem State.advance_tileCap :
    s.advance.tileCap = s.tileCap := rfl
@[simp] theorem State.advance_script :
    s.advance.script = s.script := rfl
@[simp] theorem State.advance_replies :
    s.advance.replies = s.replies := rfl

/-! ## storeTile -/

@[simp] theorem State.storeTile_st (t : Tile) :
    (s.storeTile t).st = s.st := rfl
@[simp] theorem State.storeTile_cause (t : Tile) :
    (s.storeTile t).cause = s.cause := rfl
@[simp] theorem State.storeTile_fop (t : Tile) :
    (s.storeTile t).fop = s.fop := rfl
@[simp] theorem State.storeTile_tsrc (t : Tile) :
    (s.storeTile t).tsrc = s.tsrc := rfl
@[simp] theorem State.storeTile_tlen (t : Tile) :
    (s.storeTile t).tlen = s.tlen := rfl
@[simp] theorem State.storeTile_osrc (t : Tile) :
    (s.storeTile t).osrc = s.osrc := rfl
@[simp] theorem State.storeTile_nt (t : Tile) :
    (s.storeTile t).nt = s.nt + 1#32 := rfl
@[simp] theorem State.storeTile_opc (t : Tile) :
    (s.storeTile t).opc = s.opc := rfl
@[simp] theorem State.storeTile_nent (t : Tile) :
    (s.storeTile t).nent = s.nent := rfl
@[simp] theorem State.storeTile_faddr (t : Tile) :
    (s.storeTile t).faddr = s.faddr := rfl
@[simp] theorem State.storeTile_tiles (t : Tile) :
    (s.storeTile t).tiles = Mem.write blankTile s.tiles s.nt.toNat t := rfl
@[simp] theorem State.storeTile_canvas (t : Tile) :
    (s.storeTile t).canvas = s.canvas := rfl
@[simp] theorem State.storeTile_src (t : Tile) :
    (s.storeTile t).src = s.src := rfl
@[simp] theorem State.storeTile_srcLen (t : Tile) :
    (s.storeTile t).srcLen = s.srcLen := rfl
@[simp] theorem State.storeTile_tileCap (t : Tile) :
    (s.storeTile t).tileCap = s.tileCap := rfl
@[simp] theorem State.storeTile_script (t : Tile) :
    (s.storeTile t).script = s.script := rfl
@[simp] theorem State.storeTile_replies (t : Tile) :
    (s.storeTile t).replies = s.replies := rfl

/-! ## drawn -/

@[simp] theorem State.drawn_st (o : ObjFields) (wt ht : Nat) :
    (s.drawn o wt ht).st = s.st := rfl
@[simp] theorem State.drawn_cause (o : ObjFields) (wt ht : Nat) :
    (s.drawn o wt ht).cause = s.cause := rfl
@[simp] theorem State.drawn_fop (o : ObjFields) (wt ht : Nat) :
    (s.drawn o wt ht).fop = s.fop := rfl
@[simp] theorem State.drawn_tsrc (o : ObjFields) (wt ht : Nat) :
    (s.drawn o wt ht).tsrc = s.tsrc := rfl
@[simp] theorem State.drawn_tlen (o : ObjFields) (wt ht : Nat) :
    (s.drawn o wt ht).tlen = s.tlen := rfl
@[simp] theorem State.drawn_osrc (o : ObjFields) (wt ht : Nat) :
    (s.drawn o wt ht).osrc = s.osrc := rfl
@[simp] theorem State.drawn_nt (o : ObjFields) (wt ht : Nat) :
    (s.drawn o wt ht).nt = s.nt := rfl
@[simp] theorem State.drawn_opc (o : ObjFields) (wt ht : Nat) :
    (s.drawn o wt ht).opc = s.opc + 5#32 := rfl
@[simp] theorem State.drawn_nent (o : ObjFields) (wt ht : Nat) :
    (s.drawn o wt ht).nent = s.nent + 1#32 := rfl
@[simp] theorem State.drawn_faddr (o : ObjFields) (wt ht : Nat) :
    (s.drawn o wt ht).faddr = s.faddr := rfl
@[simp] theorem State.drawn_tiles (o : ObjFields) (wt ht : Nat) :
    (s.drawn o wt ht).tiles = s.tiles := rfl
@[simp] theorem State.drawn_canvas (o : ObjFields) (wt ht : Nat) :
    (s.drawn o wt ht).canvas = s.composited o wt ht := rfl
@[simp] theorem State.drawn_src (o : ObjFields) (wt ht : Nat) :
    (s.drawn o wt ht).src = s.src := rfl
@[simp] theorem State.drawn_srcLen (o : ObjFields) (wt ht : Nat) :
    (s.drawn o wt ht).srcLen = s.srcLen := rfl
@[simp] theorem State.drawn_tileCap (o : ObjFields) (wt ht : Nat) :
    (s.drawn o wt ht).tileCap = s.tileCap := rfl
@[simp] theorem State.drawn_script (o : ObjFields) (wt ht : Nat) :
    (s.drawn o wt ht).script = s.script := rfl
@[simp] theorem State.drawn_replies (o : ObjFields) (wt ht : Nat) :
    (s.drawn o wt ht).replies = s.replies := rfl

/-! ## runAccepted -/

@[simp] theorem State.runAccepted_st :
    s.runAccepted.st = .run := rfl
@[simp] theorem State.runAccepted_cause :
    s.runAccepted.cause = s.cause := rfl
@[simp] theorem State.runAccepted_fop :
    s.runAccepted.fop = s.fop := rfl
@[simp] theorem State.runAccepted_tsrc :
    s.runAccepted.tsrc = s.tsrc := rfl
@[simp] theorem State.runAccepted_tlen :
    s.runAccepted.tlen = s.tlen := rfl
@[simp] theorem State.runAccepted_osrc :
    s.runAccepted.osrc = s.osrc := rfl
@[simp] theorem State.runAccepted_nt :
    s.runAccepted.nt = s.nt := rfl
@[simp] theorem State.runAccepted_opc :
    s.runAccepted.opc = s.osrc := rfl
@[simp] theorem State.runAccepted_nent :
    s.runAccepted.nent = 0#32 := rfl
@[simp] theorem State.runAccepted_faddr :
    s.runAccepted.faddr = s.faddr := rfl
@[simp] theorem State.runAccepted_tiles :
    s.runAccepted.tiles = s.tiles := rfl
@[simp] theorem State.runAccepted_canvas :
    s.runAccepted.canvas = [] := rfl
@[simp] theorem State.runAccepted_src :
    s.runAccepted.src = s.src := rfl
@[simp] theorem State.runAccepted_srcLen :
    s.runAccepted.srcLen = s.srcLen := rfl
@[simp] theorem State.runAccepted_tileCap :
    s.runAccepted.tileCap = s.tileCap := rfl
@[simp] theorem State.runAccepted_script :
    s.runAccepted.script = s.script := rfl
@[simp] theorem State.runAccepted_replies :
    s.runAccepted.replies = s.replies := rfl

/-! ## reply -/

@[simp] theorem State.reply_st (r : Reply) :
    (s.reply r).st = s.st := rfl
@[simp] theorem State.reply_cause (r : Reply) :
    (s.reply r).cause = s.cause := rfl
@[simp] theorem State.reply_fop (r : Reply) :
    (s.reply r).fop = s.fop := rfl
@[simp] theorem State.reply_tsrc (r : Reply) :
    (s.reply r).tsrc = s.tsrc := rfl
@[simp] theorem State.reply_tlen (r : Reply) :
    (s.reply r).tlen = s.tlen := rfl
@[simp] theorem State.reply_osrc (r : Reply) :
    (s.reply r).osrc = s.osrc := rfl
@[simp] theorem State.reply_nt (r : Reply) :
    (s.reply r).nt = s.nt := rfl
@[simp] theorem State.reply_opc (r : Reply) :
    (s.reply r).opc = s.opc := rfl
@[simp] theorem State.reply_nent (r : Reply) :
    (s.reply r).nent = s.nent := rfl
@[simp] theorem State.reply_faddr (r : Reply) :
    (s.reply r).faddr = s.faddr := rfl
@[simp] theorem State.reply_tiles (r : Reply) :
    (s.reply r).tiles = s.tiles := rfl
@[simp] theorem State.reply_canvas (r : Reply) :
    (s.reply r).canvas = s.canvas := rfl
@[simp] theorem State.reply_src (r : Reply) :
    (s.reply r).src = s.src := rfl
@[simp] theorem State.reply_srcLen (r : Reply) :
    (s.reply r).srcLen = s.srcLen := rfl
@[simp] theorem State.reply_tileCap (r : Reply) :
    (s.reply r).tileCap = s.tileCap := rfl
@[simp] theorem State.reply_script (r : Reply) :
    (s.reply r).script = s.script := rfl
@[simp] theorem State.reply_replies (r : Reply) :
    (s.reply r).replies = r :: s.replies := rfl

/-! ## placeRecord -/

@[simp] theorem State.placeRecord_st (r : Record) :
    (s.placeRecord r).st = .run := rfl
@[simp] theorem State.placeRecord_cause (r : Record) :
    (s.placeRecord r).cause = .none := rfl
@[simp] theorem State.placeRecord_fop (r : Record) :
    (s.placeRecord r).fop = .none := rfl
@[simp] theorem State.placeRecord_tsrc (r : Record) :
    (s.placeRecord r).tsrc = s.tsrc := rfl
@[simp] theorem State.placeRecord_tlen (r : Record) :
    (s.placeRecord r).tlen = s.tlen := rfl
@[simp] theorem State.placeRecord_osrc (r : Record) :
    (s.placeRecord r).osrc = s.osrc := rfl
@[simp] theorem State.placeRecord_nt (r : Record) :
    (s.placeRecord r).nt = s.nt := rfl
@[simp] theorem State.placeRecord_opc (r : Record) :
    (s.placeRecord r).opc = s.opc := rfl
@[simp] theorem State.placeRecord_nent (r : Record) :
    (s.placeRecord r).nent = s.nent := rfl
@[simp] theorem State.placeRecord_faddr (r : Record) :
    (s.placeRecord r).faddr = s.faddr := rfl
@[simp] theorem State.placeRecord_tiles (r : Record) :
    (s.placeRecord r).tiles = s.tiles := rfl
@[simp] theorem State.placeRecord_canvas (r : Record) :
    (s.placeRecord r).canvas = s.canvas := rfl
@[simp] theorem State.placeRecord_src (r : Record) :
    (s.placeRecord r).src = Mem.writeBytes s.src s.opc.toNat r.toList := rfl
@[simp] theorem State.placeRecord_srcLen (r : Record) :
    (s.placeRecord r).srcLen = if s.opc.toNat + 5 ≤ s.srcLen.toNat then s.srcLen else s.opc + 5#32 := rfl
@[simp] theorem State.placeRecord_tileCap (r : Record) :
    (s.placeRecord r).tileCap = s.tileCap := rfl
@[simp] theorem State.placeRecord_script (r : Record) :
    (s.placeRecord r).script = .unit :: s.script := rfl
@[simp] theorem State.placeRecord_replies (r : Record) :
    (s.placeRecord r).replies = s.replies := rfl

/-! ## placeCommand -/

@[simp] theorem State.placeCommand_st (c : Word) :
    (s.placeCommand c).st = .idle := rfl
@[simp] theorem State.placeCommand_cause (c : Word) :
    (s.placeCommand c).cause = .none := rfl
@[simp] theorem State.placeCommand_fop (c : Word) :
    (s.placeCommand c).fop = .none := rfl
@[simp] theorem State.placeCommand_tsrc (c : Word) :
    (s.placeCommand c).tsrc = s.tsrc := rfl
@[simp] theorem State.placeCommand_tlen (c : Word) :
    (s.placeCommand c).tlen = s.tlen := rfl
@[simp] theorem State.placeCommand_osrc (c : Word) :
    (s.placeCommand c).osrc = s.osrc := rfl
@[simp] theorem State.placeCommand_nt (c : Word) :
    (s.placeCommand c).nt = s.nt := rfl
@[simp] theorem State.placeCommand_opc (c : Word) :
    (s.placeCommand c).opc = s.opc := rfl
@[simp] theorem State.placeCommand_nent (c : Word) :
    (s.placeCommand c).nent = s.nent := rfl
@[simp] theorem State.placeCommand_faddr (c : Word) :
    (s.placeCommand c).faddr = s.faddr := rfl
@[simp] theorem State.placeCommand_tiles (c : Word) :
    (s.placeCommand c).tiles = s.tiles := rfl
@[simp] theorem State.placeCommand_canvas (c : Word) :
    (s.placeCommand c).canvas = s.canvas := rfl
@[simp] theorem State.placeCommand_src (c : Word) :
    (s.placeCommand c).src = s.src := rfl
@[simp] theorem State.placeCommand_srcLen (c : Word) :
    (s.placeCommand c).srcLen = s.srcLen := rfl
@[simp] theorem State.placeCommand_tileCap (c : Word) :
    (s.placeCommand c).tileCap = s.tileCap := rfl
@[simp] theorem State.placeCommand_script (c : Word) :
    (s.placeCommand c).script = .move (.writeReg 0 c) :: s.script := rfl
@[simp] theorem State.placeCommand_replies (c : Word) :
    (s.placeCommand c).replies = s.replies := rfl

end Machine
end Sys2Proof
end

