-- ==== Sys2Proof/Laws/Effects.lean ====
section
/-! SUPPORT. What a step can do, said once: one spec lemma per shared operation, and the inversion of
the step into a closed list of effects, from which every invariant is a case analysis. -/

namespace Sys2Proof
namespace Machine

variable {s t : State}

/-! ## Shared operations -/

theorem State.memRead_of_le {a n : Nat} (h : a + n ≤ s.srcLen.toNat) :
    s.memRead a n = some (Vector.ofFn fun i => s.srcByte (a + i.val)) := if_pos h

theorem State.memRead_of_lt {a n : Nat} (h : s.srcLen.toNat < a + n) : s.memRead a n = none :=
  if_neg (by omega)

theorem State.memRead_eq_none {a n : Nat} : s.memRead a n = none ↔ s.srcLen.toNat < a + n := by
  unfold State.memRead
  split <;> simp <;> omega

/-- MemRead answers exactly when the bytes exist, and then with those bytes (R33). -/
theorem State.memRead_eq_some {a n : Nat} {b : Vector Byte n} :
    s.memRead a n = some b ↔
      a + n ≤ s.srcLen.toNat ∧ b = Vector.ofFn fun i => s.srcByte (a + i.val) := by
  unfold State.memRead
  split
  · simp only [Option.some.injEq, true_and, *]
    exact eq_comm
  · simp [*]

theorem State.busy_eq_false : s.busy = false ↔ s.st = .idle ∨ s.st = .fault := by
  unfold State.busy
  cases s.st <;> simp

theorem State.busy_eq_true : s.busy = true ↔ s.st = .tload ∨ s.st = .run := by
  unfold State.busy
  cases s.st <;> simp

/-- What a command can do (R104, R110). -/
theorem State.command_next {a : State} (h : s.command a = .next t) :
    (s.st = .idle ∧ t = a) ∨ (s.st = .fault ∧ t = s) := by
  unfold State.command at h
  split at h <;> simp_all

/-- What an OBJ can do (R96). -/
theorem execObj_next {shape : Nat × Nat} {o : ObjFields} (h : execObj shape o s = .next t) :
    s.st = .run ∧
      ((s.tilesMissing o shape.1 shape.2 ∧ t = s.raise .tileRange s.opc) ∨
       (¬ s.tilesMissing o shape.1 shape.2 ∧ t = s.drawn o shape.1 shape.2)) := by
  unfold execObj at h
  split at h
  · refine ⟨‹_›, ?_⟩
    split at h
    · exact .inl ⟨‹_›, by cases h; rfl⟩
    · exact .inr ⟨‹_›, by cases h; rfl⟩
  · cases h

/-- A move that is refused while the unit is busy (R110). -/
theorem State.unlessBusy_next {out : Host.Outcome State Fault Refusal}
    (h : s.unlessBusy out = .next t) : s.busy = false ∧ out = .next t := by
  unfold State.unlessBusy at h
  split at h
  · cases h
  · exact ⟨by simpa using ‹¬ s.busy = true›, h⟩

/-! ## What an instruction can do -/

/-- Every way an instruction can answer a next state. -/
inductive ExecEffect (s t : State) : Prop where
  | endList (hst : s.st = .run) (h : t = { s.advance with st := .idle })
  | tileRange (hst : s.st = .run) (o : ObjFields) (wt ht : Nat) (hm : s.tilesMissing o wt ht)
      (h : t = s.raise .tileRange s.opc)
  | draw (hst : s.st = .run) (o : ObjFields) (wt ht : Nat) (hm : ¬ s.tilesMissing o wt ht)
      (hw : wt ≤ 8) (hh : ht ≤ 8) (h : t = s.drawn o wt ht)
  | tload (hst : s.st = .idle) (h : t = s.tloadAccepted)
  | run (hst : s.st = .idle) (h : t = s.runAccepted)
  | ignored (hst : s.st = .fault) (h : t = s)

theorem execObj_effect {sz sh : Nibble} {o : ObjFields} (h : execObj (shapeOf sz sh) o s = .next t) :
    ExecEffect s t := by
  obtain ⟨hst, ⟨hm, h⟩ | ⟨hm, h⟩⟩ := execObj_next h
  · exact .tileRange hst o _ _ hm h
  · exact .draw hst o _ _ hm (shapeOf_le sz sh).1 (shapeOf_le sz sh).2 h

theorem State.command_effect {a : State} (ha : a = s.tloadAccepted ∨ a = s.runAccepted)
    (h : s.command a = .next t) : ExecEffect s t := by
  obtain ⟨hst, rfl⟩ | ⟨hst, rfl⟩ := State.command_next h
  · exact ha.elim (.tload hst) (.run hst)
  · exact .ignored hst rfl

/-- Executing a decoded OBJ is drawing the block of its shape, whatever form the decoder chose (R72). -/
theorem exec_objForm (o : ObjFields) (sz sh : Nibble) (s : State) :
    exec (objForm o sz sh) s = execObj (shapeOf sz sh) o s := by
  have key : ∀ (n : Nibble) (k : Nat), n.toNat = k → n = BitVec.ofNat 4 k := by
    intro n k h
    subst h
    simp
  unfold objForm
  split <;> first | rfl | (rename_i h1 h2; rw [key _ _ h1, key _ _ h2]; rfl)

/-- Executing a record that is not END (R96). -/
theorem exec_decodeRecord_of_ne {r : Record} (h : r[0] ≠ Config.endMark) (s : State) :
    exec (decodeRecord r) s =
      execObj (shapeOf (sizeClass r) (shapeModifier r)) (objFields r) s := by
  rw [decodeRecord, if_neg h, exec_objForm]

/-- Executing a record that is END (R97). -/
theorem exec_decodeRecord_of_eq {r : Record} (h : r[0] = Config.endMark) (s : State) :
    exec (decodeRecord r) s = execEndList s := by
  rw [decodeRecord, if_pos h]
  rfl

theorem exec_effect (i : Instr) (h : exec i s = .next t) : ExecEffect s t := by
  cases i with
  | endList =>
    simp only [exec, execEndList] at h
    split at h
    · exact .endList ‹_› (by cases h; rfl)
    · cases h
  | objSq0 o => exact execObj_effect h
  | objSq1 o => exact execObj_effect h
  | objSq2 o => exact execObj_effect h
  | objSq3 o => exact execObj_effect h
  | objWd0 o => exact execObj_effect h
  | objWd1 o => exact execObj_effect h
  | objWd2 o => exact execObj_effect h
  | objWd3 o => exact execObj_effect h
  | objTl0 o => exact execObj_effect h
  | objTl1 o => exact execObj_effect h
  | objTl2 o => exact execObj_effect h
  | objTl3 o => exact execObj_effect h
  | objNull o sz sh => exact execObj_effect h
  | tload => exact State.command_effect (.inl rfl) h
  | run => exact State.command_effect (.inr rfl) h

/-! ## What the unit can do -/

/-- Every way a step of the unit can answer a next state. -/
inductive UnitEffect (s t : State) : Prop where
  | wait (hb : s.busy = false) (h : t = s)
  | loadDone (hst : s.st = .tload) (hc : s.nt.toNat = s.tileCount) (h : t = { s with st := .idle })
  | loadTile (hst : s.st = .tload) (hc : s.nt.toNat ≠ s.tileCount)
      (hr : s.tileAddress + 32 ≤ s.srcLen.toNat)
      (h : t = s.storeTile (tileDecode4bpp (Vector.ofFn fun i => s.srcByte (s.tileAddress + i.val))))
  | loadShort (hst : s.st = .tload) (hc : s.nt.toNat ≠ s.tileCount)
      (hr : s.srcLen.toNat < s.tileAddress + 32)
      (h : t = s.raise .shortReadTile (BitVec.ofNat 32 s.tileAddress))
  | recordShort (hst : s.st = .run) (hr : s.srcLen.toNat < s.opc.toNat + 5)
      (h : t = s.raise .shortReadOam s.opc)
  | endList (hst : s.st = .run) (hr : s.opc.toNat + 5 ≤ s.srcLen.toNat)
      (h : t = { s.advance with st := .idle })
  | tileRange (hst : s.st = .run) (hr : s.opc.toNat + 5 ≤ s.srcLen.toNat) (o : ObjFields)
      (wt ht : Nat) (hm : s.tilesMissing o wt ht) (h : t = s.raise .tileRange s.opc)
  | draw (hst : s.st = .run) (hr : s.opc.toNat + 5 ≤ s.srcLen.toNat) (o : ObjFields) (wt ht : Nat)
      (hm : ¬ s.tilesMissing o wt ht) (hw : wt ≤ 8) (hh : ht ≤ 8) (h : t = s.drawn o wt ht)

/-- The step of TLOAD (R65). -/
theorem State.tileStep_effect (hst : s.st = .tload) : UnitEffect s s.tileStep := by
  unfold State.tileStep
  split
  · exact .loadDone hst ‹_› rfl
  · split
    · exact .loadShort hst ‹_› (State.memRead_eq_none.1 ‹_›) rfl
    · obtain ⟨hle, rfl⟩ := State.memRead_eq_some.1 ‹_›
      exact .loadTile hst ‹_› hle rfl

/-- The step of RUN (R96). -/
theorem State.recordStep_effect (hst : s.st = .run) (h : s.recordStep = .next t) :
    UnitEffect s t := by
  unfold State.recordStep at h
  split at h
  · exact .recordShort hst (State.memRead_eq_none.1 ‹_›) (by cases h; rfl)
  · obtain ⟨hle, -⟩ := State.memRead_eq_some.1 ‹_›
    cases exec_effect _ h with
    | endList _ h => exact .endList hst hle h
    | tileRange _ o wt ht hm h => exact .tileRange hst hle o wt ht hm h
    | draw _ o wt ht hm hw hh h => exact .draw hst hle o wt ht hm hw hh h
    | tload hst' _ => exact absurd (hst.symm.trans hst') (by simp)
    | run hst' _ => exact absurd (hst.symm.trans hst') (by simp)
    | ignored hst' _ => exact absurd (hst.symm.trans hst') (by simp)

theorem State.unitStep_effect (h : s.unitStep = .next t) : UnitEffect s t := by
  unfold State.unitStep at h
  split at h
  · exact .wait (State.busy_eq_false.2 (.inl ‹_›)) (by cases h; rfl)
  · cases h; exact State.tileStep_effect ‹_›
  · exact State.recordStep_effect ‹_› h
  · exact .wait (State.busy_eq_false.2 (.inr ‹_›)) (by cases h; rfl)

/-! ## What the host can do -/

/-- Every way a move of the host can answer a next state (R110). -/
inductive MoveEffect (m : Move) (s t : State) : Prop where
  | read (hm : m ≠ .reset ∧ (∀ n v, m ≠ .writeReg n v) ∧ ∀ a bytes, m ≠ .changeSrc a bytes)
      (r : Reply) (h : t = s.reply r)
  | ignored (n : Nat) (v : Word) (hm : m = .writeReg n v) (h : t = s)
  | writeTsrc (v : Word) (hm : m = .writeReg 2 v) (hst : s.st = .idle) (h : t = { s with tsrc := v })
  | writeTlen (v : Word) (hm : m = .writeReg 3 v) (hst : s.st = .idle) (h : t = { s with tlen := v })
  | writeOsrc (v : Word) (hm : m = .writeReg 4 v) (hst : s.st = .idle) (h : t = { s with osrc := v })
  | tload (hm : m = .writeReg 0 1#32) (hst : s.st = .idle) (h : t = s.tloadAccepted)
  | run (hm : m = .writeReg 0 2#32) (hst : s.st = .idle) (h : t = s.runAccepted)
  | illegalCmd (c : Word) (hm : m = .writeReg 0 c) (h1 : c ≠ 1#32) (h2 : c ≠ 2#32)
      (hst : s.st = .idle) (h : t = s.raise .illegalCmd 0#32)
  | changeSrc (a : Nat) (bytes : List Byte) (hm : m = .changeSrc a bytes) (hb : s.busy = false)
      (hr : a + bytes.length ≤ s.srcLen.toNat) (h : t = { s with src := Mem.writeBytes s.src a bytes })
  | reset (hm : m = .reset) (h : t = s.resetUnit)

/-- The numbers of the registers a host may write with effect (R14). -/
theorem regOfNumber_number {n : Nat} {r : Reg} (h : regOfNumber n = some r) :
    (r = .cmd → n = 0) ∧ (r = .tsrc → n = 2) ∧ (r = .tlen → n = 3) ∧ (r = .osrc → n = 4) := by
  unfold regOfNumber at h
  split at h <;> cases h <;> simp

/-- What CMD dispatch can do in IDLE (R104, R107). -/
theorem State.dispatchCommand_effect (hst : s.st = .idle) {c : Word}
    (h : s.dispatchCommand c = .next t) : MoveEffect (.writeReg 0 c) s t := by
  unfold State.dispatchCommand decodeCommand at h
  by_cases h1 : c = 1#32
  · rw [if_pos h1] at h
    obtain ⟨-, h⟩ | ⟨h, -⟩ := State.command_next h
    · exact .tload (by rw [h1]) hst h
    · exact absurd (hst.symm.trans h) (by simp)
  · rw [if_neg h1] at h
    by_cases h2 : c = 2#32
    · rw [if_pos h2] at h
      obtain ⟨-, h⟩ | ⟨h, -⟩ := State.command_next h
      · exact .run (by rw [h2]) hst h
      · exact absurd (hst.symm.trans h) (by simp)
    · rw [if_neg h2] at h
      exact .illegalCmd c rfl h1 h2 hst (by cases h; rfl)

theorem State.hostMove_effect (m : Move) (h : s.hostMove m = .next t) : MoveEffect m s t := by
  cases m with
  | readReg n =>
    simp only [State.hostMove, State.hostReadReg] at h
    split at h
    · cases h
    · injection h with h; exact .read (by simp) _ h.symm
    · have h := (State.unlessBusy_next h).2; injection h with h; exact .read (by simp) _ h.symm
  | writeReg n v =>
    simp only [State.hostMove, State.hostWriteReg] at h
    split at h
    · cases h
    · rename_i r hr
      obtain ⟨hcmd, htsrc, htlen, hosrc⟩ := regOfNumber_number hr
      split at h
      · rename_i hst
        cases r <;> simp only [State.idleWriteReg] at h
        case cmd => cases hcmd rfl; exact State.dispatchCommand_effect hst h
        case tsrc => exact .writeTsrc v (by rw [htsrc rfl]) hst (by cases h; rfl)
        case tlen => exact .writeTlen v (by rw [htlen rfl]) hst (by cases h; rfl)
        case osrc => exact .writeOsrc v (by rw [hosrc rfl]) hst (by cases h; rfl)
        all_goals exact .ignored n v rfl (by cases h; rfl)
      · exact .ignored n v rfl (by cases h; rfl)
      · cases h
      · cases h
  | readTile n p =>
    obtain ⟨-, h⟩ := State.unlessBusy_next (h : s.hostReadTile n p = .next t)
    split at h
    · injection h with h; exact .read (by simp) _ h.symm
    · cases h
  | readCanvas r c =>
    obtain ⟨-, h⟩ := State.unlessBusy_next (h : s.hostReadCanvas r c = .next t)
    split at h
    · injection h with h; exact .read (by simp) _ h.symm
    · cases h
  | changeSrc a bytes =>
    obtain ⟨hb, h⟩ := State.unlessBusy_next (h : s.hostChangeSrc a bytes = .next t)
    split at h
    · exact .changeSrc a bytes rfl hb ‹_› (by cases h; rfl)
    · cases h
  | reset => exact .reset rfl (by cases h; rfl)

/-! ## What a step can do -/

/-- The inversion of the step: the unit acts, a turn of waiting ends, or the host makes its move. -/
theorem step_effect (h : step s = .next t) :
    (∃ sc, (s.script = [] ∧ sc = [] ∨ s.script = .unit :: sc ∨
        (∃ rest, s.script = .await :: rest ∧ sc = s.script)) ∧
      UnitEffect { s with script := sc } t) ∨
    (∃ rest, s.script = .await :: rest ∧ s.busy = false ∧ t = { s with script := rest }) ∨
    (∃ m rest, s.script = .move m :: rest ∧ MoveEffect m { s with script := rest } t) := by
  unfold step State.takeTurn at h
  split at h
  · rename_i hs
    exact .inl ⟨[], .inl ⟨hs, rfl⟩, by
      have := State.unitStep_effect h
      rwa [show ({ s with script := [] } : State) = s by rw [← hs]]⟩
  · rename_i rest hs
    exact .inl ⟨rest, .inr (.inl hs), State.unitStep_effect h⟩
  · rename_i rest hs
    split at h
    · exact .inl ⟨s.script, .inr (.inr ⟨rest, hs, rfl⟩), State.unitStep_effect h⟩
    · exact .inr (.inl ⟨rest, hs, by simpa using ‹¬ s.busy = true›, by cases h; rfl⟩)
  · rename_i m rest hs
    exact .inr (.inr ⟨m, rest, hs, State.hostMove_effect m h⟩)

/-! ## Acceptance -/

/-- TLOAD's acceptance of a region that fits the store (R64). -/
theorem State.tloadAccepted_of_le (h : s.tileCount ≤ s.tileCap) :
    s.tloadAccepted = { s with nt := 0#32, tiles := [], st := .tload } := by
  unfold State.tloadAccepted
  rw [if_neg (by omega)]

/-- TLOAD's acceptance of a region larger than the store (R64). -/
theorem State.tloadAccepted_of_lt (h : s.tileCap < s.tileCount) :
    s.tloadAccepted = { s with nt := 0#32, tiles := [] }.raise .tileCap s.tsrc := by
  unfold State.tloadAccepted
  rw [if_pos h]

end Machine
end Sys2Proof
end

