-- ==== Sys2Proof/Laws/PerInstr.lean ====
section
/-! SUPPORT. A family of statements about the instruction as syntax, one lemma per constructor: the
form of its encoding (30_encoding.md R44, R48, R53, R56, R58). -/

namespace Sys2Proof

/-- The ignored bits of an encoded OBJ are written 0 (R58). -/
theorem ignoredBits_encodeObj (o : ObjFields) (sz sh : Nibble) : ignoredBits (encodeObj o sz sh) = 0#2 := by
  obtain ⟨ti, x, y, hf, vf, pb⟩ := o
  show (flipSizeByte hf vf sz).extractLsb' 4 2 = 0#2
  revert hf vf sz
  decide

/-- Byte 0 of an encoded OBJ is its tile index (R45). -/
theorem byte0_encodeObj (o : ObjFields) (sz sh : Nibble) : (encodeObj o sz sh)[0] = o.ti := rfl

namespace Laws
namespace EncodedForm

/-- A record is written with its ignored bits 0, and its byte 0 is 0xFF exactly for END; a command is
code 1 or 2. -/
def Statement (i : Instr) : Prop :=
  match encode i with
  | .oam5 r => ignoredBits r = 0#2 ∧ (i.WellFormed → (r[0] = 0xFF#8 ↔ i = .endList))
  | .cmd c => c = 1#32 ∨ c = 2#32

theorem endList : Statement .endList := ⟨by decide, fun _ => by decide⟩

theorem objSq0 (o : ObjFields) : Statement (.objSq0 o) :=
  ⟨ignoredBits_encodeObj _ _ _, fun h => by
    rw [byte0_encodeObj]; simpa using (of_decide_eq_true h : o.WellFormed)⟩

theorem objSq1 (o : ObjFields) : Statement (.objSq1 o) :=
  ⟨ignoredBits_encodeObj _ _ _, fun h => by
    rw [byte0_encodeObj]; simpa using (of_decide_eq_true h : o.WellFormed)⟩

theorem objSq2 (o : ObjFields) : Statement (.objSq2 o) :=
  ⟨ignoredBits_encodeObj _ _ _, fun h => by
    rw [byte0_encodeObj]; simpa using (of_decide_eq_true h : o.WellFormed)⟩

theorem objSq3 (o : ObjFields) : Statement (.objSq3 o) :=
  ⟨ignoredBits_encodeObj _ _ _, fun h => by
    rw [byte0_encodeObj]; simpa using (of_decide_eq_true h : o.WellFormed)⟩

theorem objWd0 (o : ObjFields) : Statement (.objWd0 o) :=
  ⟨ignoredBits_encodeObj _ _ _, fun h => by
    rw [byte0_encodeObj]; simpa using (of_decide_eq_true h : o.WellFormed)⟩

theorem objWd1 (o : ObjFields) : Statement (.objWd1 o) :=
  ⟨ignoredBits_encodeObj _ _ _, fun h => by
    rw [byte0_encodeObj]; simpa using (of_decide_eq_true h : o.WellFormed)⟩

theorem objWd2 (o : ObjFields) : Statement (.objWd2 o) :=
  ⟨ignoredBits_encodeObj _ _ _, fun h => by
    rw [byte0_encodeObj]; simpa using (of_decide_eq_true h : o.WellFormed)⟩

theorem objWd3 (o : ObjFields) : Statement (.objWd3 o) :=
  ⟨ignoredBits_encodeObj _ _ _, fun h => by
    rw [byte0_encodeObj]; simpa using (of_decide_eq_true h : o.WellFormed)⟩

theorem objTl0 (o : ObjFields) : Statement (.objTl0 o) :=
  ⟨ignoredBits_encodeObj _ _ _, fun h => by
    rw [byte0_encodeObj]; simpa using (of_decide_eq_true h : o.WellFormed)⟩

theorem objTl1 (o : ObjFields) : Statement (.objTl1 o) :=
  ⟨ignoredBits_encodeObj _ _ _, fun h => by
    rw [byte0_encodeObj]; simpa using (of_decide_eq_true h : o.WellFormed)⟩

theorem objTl2 (o : ObjFields) : Statement (.objTl2 o) :=
  ⟨ignoredBits_encodeObj _ _ _, fun h => by
    rw [byte0_encodeObj]; simpa using (of_decide_eq_true h : o.WellFormed)⟩

theorem objTl3 (o : ObjFields) : Statement (.objTl3 o) :=
  ⟨ignoredBits_encodeObj _ _ _, fun h => by
    rw [byte0_encodeObj]; simpa using (of_decide_eq_true h : o.WellFormed)⟩

theorem objNull (o : ObjFields) (sz sh : Nibble) : Statement (.objNull o sz sh) :=
  ⟨ignoredBits_encodeObj _ _ _, fun h => by
    rw [byte0_encodeObj]; simpa using (of_decide_eq_true h).1⟩

theorem tload : Statement .tload := .inl rfl

theorem run : Statement .run := .inr rfl

end EncodedForm
end Laws
end Sys2Proof
end

