-- ==== Sys2Proof/Laws/Run.lean ====
section
/-! SUPPORT. Steps in a row, and the step of a unit left to itself: the host has no turn to take. -/

namespace Sys2Proof
namespace Machine

variable {s t : State}

@[simp] theorem runSteps_zero (s : State) : runSteps 0 s = .next s := rfl

theorem runSteps_succ (k : Nat) (h : step s = .next t) : runSteps (k + 1) s = runSteps k t := by
  have h' : Sys2Proof.core.step s = .next t := h
  simp only [runSteps, Host.Core.run, h']
  rfl

theorem runSteps_succ_refused (k : Nat) {r : Refusal} (h : step s = .refused r) :
    runSteps (k + 1) s = .refused r := by
  have h' : Sys2Proof.core.step s = .refused r := h
  simp only [runSteps, Host.Core.run, h']
  rfl

/-- Steps add up: `j` steps to a next state, then `k` more from there. -/
theorem runSteps_add {j : Nat} (k : Nat) (h : runSteps j s = .next t) :
    runSteps (j + k) s = runSteps k t := by
  induction j generalizing s with
  | zero => cases h; rw [Nat.zero_add]
  | succ j ih =>
    rw [show j + 1 + k = (j + k) + 1 by omega]
    cases hs : step s with
    | next u => rw [runSteps_succ _ hs] at h ⊢; exact ih h
    | fault r => cases r
    | refused r => rw [runSteps_succ_refused _ hs] at h; cases h

/-- With no turn of the host's left, the unit acts. -/
theorem step_of_no_turn (hs : s.script = []) : step s = s.unitStep := by
  unfold step State.takeTurn
  rw [hs]

theorem step_of_tload (hs : s.script = []) (h : s.st = .tload) : step s = .next s.tileStep := by
  rw [step_of_no_turn hs, State.unitStep, h]

theorem step_of_run (hs : s.script = []) (h : s.st = .run) : step s = s.recordStep := by
  rw [step_of_no_turn hs, State.unitStep, h]

theorem step_of_waiting (hs : s.script = []) (h : s.st = .idle ∨ s.st = .fault) :
    step s = .next s := by
  rw [step_of_no_turn hs, State.unitStep]
  rcases h with h | h <;> rw [h]

/-- A unit that waits and is left to itself stays as it is (log 7). -/
theorem runSteps_of_waiting (k : Nat) (hs : s.script = []) (h : s.st = .idle ∨ s.st = .fault) :
    runSteps k s = .next s := by
  induction k with
  | zero => rfl
  | succ k ih => rw [runSteps_succ k (step_of_waiting hs h), ih]

end Machine
end Sys2Proof
end

