-- ==== Sys2Proof/Tests/Slice0.lean ====
section
/-! SUPPORT. The model's own tests: the well-formedness smoke, words written out from the spec's encodings,
one step on small states (expected values from 95_test_vectors.md and the worked examples of the rules),
and, for every statement with hypotheses, a witness that meets them. -/

open Sys2Proof Sys2Proof.Machine Sys2Proof.Certificates

namespace Sys2Proof
namespace Tests

/-! ## Small states -/

/-- A test on the next state of an outcome; false for a refusal. -/
def after (o : Host.Outcome State Fault Refusal) (p : State → Bool) : Bool :=
  match o with
  | .next t => p t
  | .fault _ => false
  | .refused _ => false

/-- Is the outcome this refusal? -/
def isRefused (o : Host.Outcome State Fault Refusal) (r : Refusal) : Bool :=
  match o with
  | .next _ => false
  | .fault _ => false
  | .refused q => q == r

/-- An IDLE unit whose SRC is the given bytes from address 0 on, and nothing more. -/
def idleWith (bytes : List Byte) : State :=
  { State.reset with src := Mem.writeBytes [] 0 bytes, srcLen := BitVec.ofNat 32 bytes.length }

/-- A unit in RUN at address 0 of that SRC, with `n` tiles, the ones listed first and the others blank. -/
def runWith (n : Nat) (tiles : List Tile) (bytes : List Byte) : State :=
  { idleWith bytes with
    st := .run
    nt := BitVec.ofNat 32 n
    tiles := (tiles.mapIdx fun k t => (k, t)).filter fun c => c.2 != blankTile }

/-- `s` with this as the host's next move. -/
def move (s : State) (m : Move) : State := { s with script := [.move m] }

/-- The tile of 32 bytes that start as given and go on with zeros. -/
def tileFrom (bytes : List Byte) : Tile :=
  tileDecode4bpp (Vector.ofFn fun i => bytes[i.val]?.getD 0#8)

/-- `t0` of vector T7. -/
def t0 : Tile := tileFrom [0x10#8, 0x32#8, 0x54#8, 0x76#8, 0x98#8, 0xBA#8, 0xDC#8, 0xFE#8]

/-- `t2` of program P3: pixel 0 is 1, pixel 1 is 2, pixel 62 is 3, pixel 63 is 4. -/
def t2 : Tile := ((((blankTile.set 0 1#4).set 1 2#4).set 62 3#4).set 63 4#4)

/-- Tile `k` of the vectors of Part 4: every pixel is `k mod 15 + 1`. -/
def flat (k : Nat) : Tile := Vector.replicate 64 (BitVec.ofNat 4 (k % 15 + 1))

/-- Some operands. -/
def here (ti : Byte) : ObjFields := ⟨ti, 0#8, 0#8, false, false, 0#4⟩

/-- Columns `c` to `c + vs.length - 1` of row `r` hold `vs`. -/
def rowIs (t : State) (r c : Nat) (vs : List Nat) : Bool :=
  (vs.mapIdx fun k v => (t.canvasCell r (c + k)).toNat == v).all id

/-! ## Well-formedness: each check refuses its ill-formed term -/

theorem test_end_mark_is_no_tile_index :
    [Instr.objSq0, .objSq1, .objSq2, .objSq3, .objWd0, .objWd1, .objWd2, .objWd3,
      .objTl0, .objTl1, .objTl2, .objTl3].all (fun f => (f (here 0xFF#8)).wellFormed == false) = true := by
  decide

theorem test_null_with_end_mark_is_ill_formed : ¬ (Instr.objNull (here 0xFF#8) 4#4 0#4).WellFormed := by
  decide

theorem test_null_with_a_key_of_the_table_is_ill_formed :
    ¬ (Instr.objNull (here 0#8) 3#4 2#4).WellFormed := by decide

theorem test_well_formed_terms :
    (Instr.objSq3 (here 0xFE#8)).WellFormed ∧ (Instr.objNull (here 0xFE#8) 0#4 3#4).WellFormed ∧
    Instr.endList.WellFormed ∧ Instr.tload.WellFormed ∧ Instr.run.WellFormed := by decide

/-! ## Decoding: words from 30_encoding.md R45, R51, R56 and the vectors of Part 3 -/

/-- The record decodes to the instruction. -/
abbrev DecodesTo (bytes : Record) (i : Instr) : Prop := decode (.oam5 bytes) = .ok i

/-- O1, O2. -/
theorem test_decode_end : DecodesTo #v[0xFF#8, 0#8, 0#8, 0#8, 0#8] .endList ∧
    DecodesTo #v[0xFF#8, 0x12#8, 0x34#8, 0x56#8, 0x78#8] .endList := by decide

/-- O5 (the ignored bits set), O10, O11. -/
theorem test_decode_sq0 :
    DecodesTo #v[0#8, 0#8, 0#8, 0x30#8, 0#8] (.objSq0 (here 0#8)) ∧
    DecodesTo #v[0xFE#8, 0#8, 0#8, 0#8, 0#8] (.objSq0 (here 254#8)) ∧
    sext8 0xFF#8 = -1 := by decide

/-- The record of P4a. -/
theorem test_decode_sq1 : DecodesTo #v[1#8, 0#8, 0#8, 1#8, 0#8] (.objSq1 (here 1#8)) := by decide

/-- The example of R73. -/
theorem test_decode_sq2 : DecodesTo #v[0#8, 0#8, 0#8, 2#8, 0#8] (.objSq2 (here 0#8)) := by decide

/-- The record of S7. -/
theorem test_decode_sq3 : DecodesTo #v[0#8, 0x7F#8, 0x7F#8, 3#8, 0#8]
    (.objSq3 ⟨0#8, 127#8, 127#8, false, false, 0#4⟩) := by decide

/-- The record of P3, flipped both ways. -/
theorem test_decode_wd0 : DecodesTo #v[0#8, 0xF0#8, 0xF8#8, 0xC0#8, 0x31#8]
    (.objWd0 ⟨0#8, BitVec.ofInt 8 (-16), BitVec.ofInt 8 (-8), true, true, 3#4⟩) := by decide

/-- O4: x = 127, y = -128, hf = 1, vf = 0, pb = 10. -/
theorem test_decode_wd1 : DecodesTo #v[5#8, 0x7F#8, 0x80#8, 0x41#8, 0xA1#8]
    (.objWd1 ⟨5#8, BitVec.ofInt 8 127, BitVec.ofInt 8 (-128), true, false, 10#4⟩) := by decide

/-- O12, O13: the document's literals. -/
theorem test_decode_wd2_wd3 :
    DecodesTo #v[0#8, 0#8, 0#8, 2#8, 1#8] (.objWd2 (here 0#8)) ∧ shapeOf 2#4 1#4 = (8, 4) ∧
    DecodesTo #v[0#8, 0#8, 0#8, 3#8, 1#8] (.objWd3 (here 0#8)) ∧ shapeOf 3#4 1#4 = (8, 2) := by decide

/-- The example of R75, and F10, F11. -/
theorem test_decode_tl0_tl1_tl2 :
    DecodesTo #v[0xFE#8, 0#8, 0#8, 0#8, 2#8] (.objTl0 (here 254#8)) ∧
    DecodesTo #v[0#8, 0#8, 0#8, 1#8, 2#8] (.objTl1 (here 0#8)) ∧
    DecodesTo #v[0#8, 0#8, 0#8, 2#8, 2#8] (.objTl2 (here 0#8)) := by decide

/-- O3: ti 18, x -8, y 16, sz 3, hf 1, vf 1, sh 2, pb 5. -/
theorem test_decode_tl3 : DecodesTo #v[0x12#8, 0xF8#8, 0x10#8, 0xC3#8, 0x52#8]
    (.objTl3 ⟨18#8, BitVec.ofInt 8 (-8), 16#8, true, true, 5#4⟩) := by decide

/-- O6 to O9. -/
theorem test_decode_null :
    DecodesTo #v[5#8, 0#8, 0#8, 4#8, 0#8] (.objNull (here 5#8) 4#4 0#4) ∧
    DecodesTo #v[5#8, 0#8, 0#8, 0#8, 3#8] (.objNull (here 5#8) 0#4 3#4) ∧
    DecodesTo #v[5#8, 0#8, 0#8, 0x0F#8, 0x0F#8] (.objNull (here 5#8) 15#4 15#4) ∧
    DecodesTo #v[5#8, 0#8, 0#8, 0xC8#8, 0xF4#8]
      (.objNull ⟨5#8, 0#8, 0#8, true, true, 15#4⟩ 8#4 4#4) := by decide

/-- R56: the whole word is compared (H4). -/
theorem test_decode_commands :
    decode (.cmd 1#32) = .ok .tload ∧ decode (.cmd 2#32) = .ok .run ∧
    decode (.cmd 0#32) = .error (.illegalCommand 0#32) ∧
    decode (.cmd 3#32) = .error (.illegalCommand 3#32) ∧
    decode (.cmd 0x101#32) = .error (.illegalCommand 0x101#32) := by decide

/-- R58: the assembler's examples, and the operand it refuses. -/
theorem test_assembler :
    assembleObj 18 (-8) 16 3 2 5 true true = some #v[0x12#8, 0xF8#8, 0x10#8, 0xC3#8, 0x52#8] ∧
    assembleObj 5 127 (-128) 1 1 10 true false = some #v[5#8, 0x7F#8, 0x80#8, 0x41#8, 0xA1#8] ∧
    assembleObj 255 0 0 0 0 0 false false = none ∧
    assemble 0 [.org 0x40, .endList] =
      some [(0x40, 0xFF#8), (0x41, 0#8), (0x42, 0#8), (0x43, 0#8), (0x44, 0#8)] := by decide

/-! ## The tile decoder: vectors of Part 2 -/

/-- T1: `b[i] = i`. -/
theorem test_tile_decode_counts :
    let px := tileDecode4bpp (Vector.ofFn fun i => BitVec.ofNat 8 i.val)
    (px[2], px[3], px[31], px[32], px[62], px[63]) = (1#4, 0#4, 0#4, 0#4, 15#4, 1#4) := by decide

/-- T4: one row is four bytes. -/
theorem test_tile_decode_row :
    let px := tileFrom [0x21#8, 0x43#8, 0x65#8, 0x87#8]
    (px[0], px[1], px[2], px[6], px[7], px[8]) = (1#4, 2#4, 3#4, 7#4, 8#4, 0#4) := by decide

/-! ## TLOAD: vectors of Part 6 -/

/-- L4, from the second tile on: SHORT_READ_TILE, FADDR 72, the first tile kept. -/
theorem test_tload_short_read :
    after (step { idleWith [] with st := .tload, srcLen := 100#32, tsrc := 40#32, tlen := 64#32, nt := 1#32 })
      (fun t => t.statusWord == 0x113#32 && t.faddr == 72#32 && t.nt == 1#32) = true := by decide

/-- L8: the last byte of SRC is readable. -/
theorem test_tload_last_byte :
    after (step { idleWith (List.replicate 64 0x21#8) with st := .tload, tsrc := 32#32, tlen := 32#32 })
      (fun t => t.nt == 1#32 && t.tilePixel 0 62 == 1#4 && t.tilePixel 0 63 == 2#4) = true := by
  decide +kernel

/-- L5: three tiles for a store of two. -/
theorem test_tload_too_large :
    after (exec .tload { idleWith [] with tileCap := 2, tlen := 96#32, nt := 1#32, tiles := [(0, t0)] })
      (fun t => t.statusWord == 0x143#32 && t.nt == 0#32 && t.tiles == [] && t.faddr == 0#32) = true := by
  decide

/-- L3: the remainder of TLEN is not read. -/
theorem test_tload_done :
    after (step { idleWith [] with st := .tload, srcLen := 100#32, tlen := 95#32, nt := 2#32 })
      (fun t => t.statusWord == 0#32 && t.nt == 2#32) = true := by decide

/-! ## Records: vectors of Parts 4, 5, 7 and 8 -/

/-- R106: `FF 00 00 00 00` at 0x40 ends RUN with OPC = 0x45. -/
theorem test_end : after (exec .endList { State.reset with st := .run, opc := 0x40#32 })
    (fun t => t.statusWord == 0#32 && t.opc == 0x45#32 && t.nent == 0#32) = true := by decide

/-- S9: bank 2; pixel 0 of t0 is transparent, not 32. -/
theorem test_sq0_bank :
    after (step (runWith 1 [t0] [0#8, 0#8, 0#8, 0#8, 0x20#8])) (fun t =>
      rowIs t 256 256 [0, 33, 34, 35, 36, 37, 38, 39] && rowIs t 257 255 [0, 40, 41, 42, 43, 44, 45, 46, 47] &&
      t.opc == 5#32 && t.nent == 1#32) = true := by decide +kernel

/-- S6: x = y = -128 and the largest value. -/
theorem test_sq0_corner :
    after (exec (.objSq0 ⟨0#8, 0x80#8, 0x80#8, false, false, 15#4⟩) (runWith 1 [flat 14] []))
      (fun t => rowIs t 128 127 [0, 255] && rowIs t 135 135 [255, 0] && rowIs t 127 128 [0]) = true := by
  decide +kernel

/-- S3: the later object draws over, its transparent pixels do not erase. -/
theorem test_later_draws_over :
    after (exec (.objSq0 ⟨1#8, 0#8, 0#8, false, false, 1#4⟩)
        { runWith 2 [flat 0, tileFrom (List.replicate 32 0x20#8)] [] with
          canvas := [(canvasKey 256 256, 1#8), (canvasKey 256 257, 1#8)] })
      (fun t => rowIs t 256 256 [1, 18, 0, 18, 0, 18, 0, 18]) = true := by decide +kernel

/-- F2: the grid of 2×2 tiles. -/
theorem test_sq1_grid :
    after (exec (.objSq1 (here 0#8)) (runWith 4 [flat 0, flat 1, flat 2, flat 3] [])) (fun t =>
      rowIs t 256 263 [1, 2] && rowIs t 263 256 [1] && rowIs t 264 263 [3, 4] && rowIs t 271 271 [4, 0])
      = true := by decide +kernel

/-- H13: 61 + 4 = 65 > 64. -/
theorem test_sq1_tile_range :
    after (exec (.objSq1 (here 61#8)) { State.reset with st := .run, nt := 64#32, opc := 0x40#32 })
      (fun t => t.statusWord == 0x233#32 && t.faddr == 0x40#32 && t.opc == 0x40#32 && t.nent == 0#32 &&
        t.canvas == []) = true := by decide

/-- P3: the 2×1 object flipped neither way, and both ways. -/
theorem test_wd0_flips :
    after (exec (.objWd0 ⟨0#8, 0xF0#8, 0xF8#8, false, false, 3#4⟩) (runWith 2 [t0, t2] [])) (fun t =>
      rowIs t 248 240 [0, 49, 50, 51, 52, 53, 54, 55, 49, 50, 0] && rowIs t 255 253 [0, 51, 52]) = true ∧
    after (exec (.objWd0 ⟨0#8, 0xF0#8, 0xF8#8, true, true, 3#4⟩) (runWith 2 [t0, t2] [])) (fun t =>
      rowIs t 248 240 [52, 51, 0] && rowIs t 255 246 [50, 49, 55, 54, 53, 52, 51, 50, 49, 0]) = true := by
  decide +kernel

/-- P3, flipped horizontally and vertically alone. -/
theorem test_wd0_one_flip :
    after (exec (.objWd0 ⟨0#8, 0xF0#8, 0xF8#8, true, false, 3#4⟩) (runWith 2 [t0, t2] [])) (fun t =>
      rowIs t 249 247 [0, 63, 62, 61, 60, 59, 58, 57, 56] && rowIs t 255 240 [52, 51]) = true ∧
    after (exec (.objWd0 ⟨0#8, 0xF0#8, 0xF8#8, false, true, 3#4⟩) (runWith 2 [t0, t2] [])) (fun t =>
      rowIs t 248 254 [51, 52] && rowIs t 254 240 [56, 57, 58, 59, 60, 61, 62, 63]) = true := by
  decide +kernel

/-- F9. -/
theorem test_tl0_grid :
    after (exec (.objTl0 (here 0#8)) (runWith 2 [flat 0, flat 1] [])) (fun t =>
      rowIs t 263 255 [0, 1] && rowIs t 264 263 [2, 0] && rowIs t 272 256 [0]) = true := by decide +kernel

/-- The 8 other forms run when the last tile of their block is loaded and fault with one tile fewer; the
bounds are the numbers of tiles of R73 to R75. -/
theorem test_block_sizes :
    [(Instr.objSq2, 16), (.objSq3, 64), (.objWd1, 4), (.objWd2, 32), (.objWd3, 16), (.objTl1, 4),
      (.objTl2, 8), (.objTl3, 32)].all (fun f =>
        after (exec (f.1 (here 200#8)) { State.reset with st := .run, nt := BitVec.ofNat 32 (200 + f.2) })
          (fun t => t.statusWord == 2#32 && t.opc == 5#32 && t.nent == 1#32) &&
        after (exec (f.1 (here 200#8)) { State.reset with st := .run, nt := BitVec.ofNat 32 (199 + f.2) })
          (fun t => t.statusWord == 0x233#32 && t.opc == 0#32 && t.nent == 0#32)) = true := by decide +kernel

/-- F4, F7, F8, F12, F3, F6, F10, F11: the pixel at the left of tile-row 1 (or, in a form of one row, of
tile-column 3) takes the tile the grid shows there. -/
theorem test_grids_of_larger_forms :
    let s := runWith 64 ((List.range 16).map flat) []
    [((8, 8), 0, 8, 9), ((8, 4), 0, 8, 9), ((8, 2), 0, 8, 9), ((4, 8), 0, 8, 5), ((4, 4), 0, 8, 5),
      ((4, 1), 24, 0, 4), ((1, 4), 0, 24, 4), ((2, 4), 0, 8, 3)].all (fun (f : (Nat × Nat) × Nat × Nat × Nat) =>
        s.flippedPixel (here 0#8) f.1.1 f.1.2 f.2.1 f.2.2.1 == BitVec.ofNat 8 f.2.2.2) = true := by
  decide +kernel

/-- H11: with NT = 0 a zero-sized object is executed and counted. -/
theorem test_null_counts :
    after (step (runWith 0 [] [5#8, 0#8, 0#8, 4#8, 0#8, 0xFF#8, 0#8, 0#8, 0#8, 0#8]))
      (fun t => t.statusWord == 2#32 && t.nent == 1#32 && t.opc == 5#32 && t.canvas == []) = true := by decide

/-- H15: a trailing FF with fewer than five bytes is a short read. -/
theorem test_end_short_read :
    after (step { runWith 0 [] [0xFF#8, 0#8, 0#8, 0#8] with opc := 0#32 })
      (fun t => t.statusWord == 0x223#32 && t.faddr == 0#32 && t.nent == 0#32) = true := by decide

/-! ## RUN and the host's moves: vectors of Part 7 -/

/-- R82: a fresh canvas. -/
theorem test_run_acceptance :
    after (step (move { State.reset with osrc := 0x40#32, nent := 7#32, canvas := [(5, 1#8)] } (.writeReg 0 2#32)))
      (fun t => t.statusWord == 2#32 && t.opc == 0x40#32 && t.nent == 0#32 && t.canvas == []) = true := by decide

/-- RUN while the unit is busy is refused (R104). -/
theorem test_run_while_busy : isRefused (exec .run { State.reset with st := .tload }) .hostMoveWhileBusy = true := by
  decide

/-- H2, H4. -/
theorem test_illegal_command :
    after (step (move { State.reset with nt := 3#32, faddr := 9#32 } (.writeReg 0 0#32)))
      (fun t => t.statusWord == 0x353#32 && t.faddr == 0#32 && t.nt == 3#32) = true ∧
    after (step (move State.reset (.writeReg 0 0x101#32))) (fun t => t.statusWord == 0x353#32) = true := by decide

/-- H5: writes are ignored in FAULT. -/
theorem test_fault_ignores_writes :
    let s := { State.reset with st := .fault, cause := .illegalCmd, fop := .dispatch }
    after (step (move s (.writeReg 2 5#32))) (fun t => t == s) = true ∧
    after (step (move s (.writeReg 0 1#32))) (fun t => t == s) = true := by decide

/-- H6, H7. -/
theorem test_reset_and_read_only_register :
    after (step (move { State.reset with st := .fault, cause := .tileCap, fop := .tload, faddr := 8#32 } .reset))
      (fun t => t == State.reset) = true ∧
    after (step (move { State.reset with nt := 2#32 } (.writeReg 5 7#32))) (fun t => t.nt == 2#32) = true := by
  decide

/-- H1 (STATUS) and H8. -/
theorem test_reads :
    after (step (move State.reset (.readReg 1))) (fun t => t.replies == [.reg 0#32]) = true ∧
    isRefused (step (move { State.reset with nt := 2#32 } (.readTile 2 0))) (.tilePortRange 2 0) = true := by decide

/-- A host that awaits leaves the unit its steps (R110): the host's turn is kept while the unit is busy. -/
theorem test_await :
    after (step { runWith 0 [] [0xFF#8, 0#8, 0#8, 0#8, 0#8] with script := [.await] })
      (fun t => t.st == .idle && t.script == [.await]) = true ∧
    after (step { State.reset with script := [.await, .unit] }) (fun t => t.script == [.unit]) = true := by decide

/-- withFetchWord: the next step after reset runs the table's word. -/
theorem test_placed_word :
    after (step (State.reset.withFetchWord 40 0x0004000005)) (fun t => t.nent == 1#32 && t.opc == 5#32) = true ∧
    after (step (State.reset.withFetchWord 32 2)) (fun t => t.st == .run) = true := by decide


/-! ## Witnesses: for every statement with hypotheses, inputs that meet all of them

A statement of several clauses has one conjunct for each clause, at a boundary of its range. -/

/-- A unit in RUN at address 0 of a SRC of five bytes, 64 tiles loaded, the record an 8×8 object whose
block is exactly the loaded tiles. -/
def atObject : State := runWith 64 [t0, t2] [0#8, 0x7F#8, 0x80#8, 3#8, 0xF0#8]

/-- The same with one tile fewer. -/
def atMissing : State := { atObject with nt := 63#32 }

/-- A unit in RUN at an END that is the last five bytes of SRC. -/
def atEnd : State := runWith 1 [t0] [0xFF#8, 1#8, 2#8, 3#8, 4#8]

/-- A unit busy loading the second of two tiles, the first loaded, the second ending with SRC. -/
def atTile : State :=
  { idleWith (List.replicate 64 0x21#8) with
    st := .tload, tlen := 64#32, nt := 1#32, tiles := [(0, t0)] }

/-- A unit in IDLE with two tiles to load from a SRC of exactly 64 bytes. -/
def readyToLoad : State := { idleWith (List.replicate 64 0x21#8) with tlen := 64#32 }

/-- A unit in IDLE with a list of one zero-sized object and END. -/
def readyToRun : State :=
  idleWith [200#8, 0#8, 0#8, 4#8, 0#8, 0xFF#8, 0#8, 0#8, 0#8, 0#8]

/-- A unit in FAULT. -/
def faultedUnit : State :=
  { State.reset with st := .fault, cause := .illegalCmd, fop := .dispatch }

theorem witness_DecodeOfEncodeIsIdentity :
    (Instr.objTl3 (here 0xFE#8)).WellFormed ∧ (Instr.objNull (here 0#8) 3#4 3#4).WellFormed := by decide

theorem witness_DecodedInstructionIsWellFormed : decode (.cmd 2#32) = .ok .run ∧
    decode (.oam5 #v[0xFE#8, 0#8, 0#8, 0#8, 3#8]) = .ok (.objNull (here 0xFE#8) 0#4 3#4) := by decide

theorem witness_EncodeOfDecodeClearsIgnoredBits :
    (#v[0xFE#8, 1#8, 2#8, 0xFF#8, 4#8] : Record)[0] ≠ 0xFF#8 := by decide

theorem witness_IgnoredBitsTakeNoPart :
    (let r : Record := #v[5#8, 1#8, 2#8, 0x33#8, 4#8]
     let q : Record := #v[5#8, 1#8, 2#8, 0x03#8, 4#8]
     r[0] = q[0] ∧ r[1] = q[1] ∧ r[2] = q[2] ∧ r[3] &&& 0xCF#8 = q[3] &&& 0xCF#8 ∧ r[4] = q[4]) ∧
    assembleObj 0 0 0 15 0 0 false false = some #v[0#8, 0#8, 0#8, 15#8, 0#8] := by decide

theorem witness_RecordFieldsByByte :
    (4 ≤ (4#4 : Nibble).toNat ∨ 3 ≤ (0#4 : Nibble).toNat) ∧
    (4 ≤ (0#4 : Nibble).toNat ∨ 3 ≤ (3#4 : Nibble).toNat) := by decide

theorem witness_ShapeTableEntries :
    ¬ isShapeKey 4#4 0#4 ∧ ¬ isShapeKey 3#4 3#4 ∧ ¬ isShapeKey 15#4 15#4 := by decide

theorem witness_AssembleThenDisassemble :
    objOperandsInRange 254 (-128) 127 15 15 15 ∧ objOperandsInRange 0 127 (-128) 0 0 0 ∧
    ¬ objOperandsInRange 255 0 0 0 0 0 ∧ ¬ objOperandsInRange 0 128 0 0 0 0 ∧
    ¬ objOperandsInRange 0 0 (-129) 0 0 0 ∧ ¬ objOperandsInRange 0 0 0 16 0 0 := by decide

theorem witness_TloadAcceptance :
    (let s := { readyToLoad with tileCap := 2 }
     s.st = .idle ∧ s.tlen.toNat / 32 ≤ s.tileCap) ∧
    (let s := { readyToLoad with tileCap := 1 }
     s.st = .idle ∧ s.tileCap < s.tlen.toNat / 32) ∧
    faultedUnit.st = .fault ∧ (atTile.st = .tload ∨ atTile.st = .run) := by decide

theorem witness_TloadStep :
    (atTile.st = .tload ∧ atTile.script = [] ∧ Mem.wf blankTile atTile.tiles ∧
      atTile.nt.toNat ≠ atTile.tlen.toNat / 32 ∧
      atTile.tsrc.toNat + 32 * atTile.nt.toNat + 32 ≤ atTile.srcLen.toNat) ∧
    (let s := { atTile with srcLen := 63#32 }
     s.st = .tload ∧ s.script = [] ∧ Mem.wf blankTile s.tiles ∧ s.nt.toNat ≠ s.tlen.toNat / 32 ∧
      s.srcLen.toNat < s.tsrc.toNat + 32 * s.nt.toNat + 32) ∧
    (let s := { atTile with nt := 2#32 }
     s.st = .tload ∧ s.script = [] ∧ Mem.wf blankTile s.tiles ∧ s.nt.toNat = s.tlen.toNat / 32) := by
  decide +kernel

/-- The invariant a statement about a busy TLOAD asks for holds of a state in the middle of one. -/
theorem witness_TilesSound : atTile.TilesSound := by
  unfold State.TilesSound State.tileAddress State.tileCount
  decide +kernel

theorem witness_TloadLoadsTheRegion :
    readyToLoad.st = .idle ∧ readyToLoad.script = [] ∧ readyToLoad.tileCount ≤ readyToLoad.tileCap ∧
    readyToLoad.tileCount ≤ readyToLoad.tilesThatFit ∧ readyToLoad.tileCount = 2 := by decide +kernel

theorem witness_TloadShortReadKeepsWholeTiles :
    let s := { readyToLoad with srcLen := 63#32 }
    s.st = .idle ∧ s.script = [] ∧ s.tileCount ≤ s.tileCap ∧ s.tilesThatFit < s.tileCount ∧
    s.tilesThatFit = 1 := by decide +kernel

theorem witness_PaletteBankOffset : (0#4 : Nibble) = 0#4 ∧ (1#4 : Nibble) ≠ 0#4 ∧ (15#4 : Nibble) ≠ 0#4 := by
  decide

theorem witness_FlipsPermuteTheObject : 63 < 64 ∧ 0 < 64 ∧ mirror true 64 63 = 0 := by decide

theorem witness_ObjectLiesInsideTheCanvas :
    63 < 64 ∧ canvasRow ⟨0#8, 0x80#8, 0x7F#8, false, false, 0#4⟩ 63 = 446 ∧
    canvasColumn ⟨0#8, 0x80#8, 0x7F#8, false, false, 0#4⟩ 0 = 128 := by decide

/-- The hypotheses of `DrawsBlock` at the last block that fits, for an operand and a block. -/
abbrev DrawHypotheses (s : State) (o : ObjFields) (wt ht : Nat) : Prop :=
  s.st = .run ∧ Memory.wf s.canvas ∧ o.ti.toNat + wt * ht ≤ s.nt.toNat

/-- `n` tiles loaded, something on the canvas. -/
def loaded (n : Nat) : State :=
  { State.reset with st := .run, nt := BitVec.ofNat 32 n, tiles := [(1, t2)], canvas := [(canvasKey 256 256, 1#8)] }

theorem witness_SquareFormsDraw :
    DrawHypotheses (loaded 255) (here 0xFE#8) 1 1 ∧ DrawHypotheses (loaded 258) (here 0xFE#8) 2 2 ∧
    DrawHypotheses (loaded 270) (here 0xFE#8) 4 4 ∧ DrawHypotheses (loaded 318) (here 0xFE#8) 8 8 := by
  decide

theorem witness_WideFormsDraw :
    DrawHypotheses (loaded 256) (here 0xFE#8) 2 1 ∧ DrawHypotheses (loaded 258) (here 0xFE#8) 4 1 ∧
    DrawHypotheses (loaded 286) (here 0xFE#8) 8 4 ∧ DrawHypotheses (loaded 270) (here 0xFE#8) 8 2 := by
  decide

theorem witness_TallFormsDraw :
    DrawHypotheses (loaded 256) (here 0xFE#8) 1 2 ∧ DrawHypotheses (loaded 258) (here 0xFE#8) 1 4 ∧
    DrawHypotheses (loaded 262) (here 0xFE#8) 2 4 ∧ DrawHypotheses (loaded 286) (here 0xFE#8) 4 8 := by
  decide

theorem witness_ZeroSizedObjectOnlyCounts :
    (loaded 0).st = .run ∧ (Instr.objNull (here 0xFE#8) 4#4 0#4).WellFormed ∧
    (Instr.objNull (here 0#8) 3#4 3#4).WellFormed := by decide

theorem witness_EndReturnsToIdle : atEnd.st = .run := by decide

theorem witness_MissingTilesFault :
    atMissing.st = .run ∧ atMissing.nt.toNat < (here 0#8).ti.toNat + 8 * 8 ∧
    ¬ atObject.nt.toNat < (here 0#8).ti.toNat + 8 * 8 := by decide

theorem witness_RunAcceptance :
    readyToRun.st = .idle ∧ faultedUnit.st = .fault ∧ (atEnd.st = .tload ∨ atEnd.st = .run) ∧
    (atTile.st = .tload ∨ atTile.st = .run) := by decide

theorem witness_RecordOutsideRunIsRefused :
    isRecord .endList ∧ isRecord (.objSq0 (here 0#8)) ∧ State.reset.st ≠ .run ∧ faultedUnit.st ≠ .run := by
  refine ⟨⟨?_, ?_⟩, ⟨?_, ?_⟩, ?_, ?_⟩ <;> decide

/-- Both clauses, and each way the turn may stand. -/
theorem witness_StepRunsTheDecodedRecord :
    (atObject.st = .run ∧ atObject.script = [] ∧ atObject.opc.toNat + 5 ≤ atObject.srcLen.toNat) ∧
    (let s := { atObject with srcLen := 4#32, script := [.unit, .await] }
     s.st = .run ∧ s.script = .unit :: [.await] ∧ s.srcLen.toNat < s.opc.toNat + 5) ∧
    (let s := { atObject with script := [.await] }
     s.st = .run ∧ s.script = [.await] ∧ [Turn.await].head? = some .await ∧
      s.opc.toNat + 5 ≤ s.srcLen.toNat) := by decide

theorem witness_ByteZeroAloneDecidesEnd :
    (AtRecord atEnd ∧ atEnd.srcByte atEnd.opc.toNat = 0xFF#8 ∧ atEnd.opc.toNat + 5 ≤ atEnd.srcLen.toNat) ∧
    (let s := { atEnd with srcLen := 4#32 }
     AtRecord s ∧ s.srcByte s.opc.toNat = 0xFF#8 ∧ s.srcLen.toNat < s.opc.toNat + 5) := by decide

/-- A block that is just missing a tile; one that just fits; a zero-sized object. -/
theorem witness_RunStepOnAnObject :
    (AtRecord atMissing ∧ Memory.wf atMissing.canvas ∧ atMissing.opc.toNat + 5 ≤ atMissing.srcLen.toNat ∧
      TilesMissingAt atMissing (recordFrom atMissing atMissing.opc.toNat)) ∧
    (let r := recordFrom atObject atObject.opc.toNat
     AtRecord atObject ∧ Memory.wf atObject.canvas ∧ atObject.opc.toNat + 5 ≤ atObject.srcLen.toNat ∧
      r[0] ≠ 0xFF#8 ∧ r[0].toNat + (recordShape r).1 * (recordShape r).2 = atObject.nt.toNat) ∧
    (let s := { readyToRun with st := .run }
     let r := recordFrom s s.opc.toNat
     AtRecord s ∧ r[0] ≠ 0xFF#8 ∧ (recordShape r).1 * (recordShape r).2 = 0) := by decide +kernel

theorem witness_RepeatedDrawIsIdempotent : 8 ≤ 8 ∧ Memory.wf (loaded 318).canvas := by decide

theorem witness_LaterObjectDrawsOverEarlier : 8 ≤ 8 ∧ 1 ≤ 8 ∧ Memory.wf (loaded 318).canvas ∧ 511 < 512 := by
  decide

/-- Two objects of one tile side by side: their cells never meet. -/
theorem witness_DisjointDrawsCommute :
    Memory.wf (loaded 2).canvas ∧ ∀ r c, c < 512 →
      cellAfterDraw { loaded 2 with canvas := [] } (here 1#8) 1 1 r c = 0#8 ∨
      cellAfterDraw { loaded 2 with canvas := [] } ⟨1#8, 8#8, 0#8, false, false, 0#4⟩ 1 1 r c = 0#8 := by
  refine ⟨by decide, fun r c _ => ?_⟩
  have e : ∀ t : State, t.canvas = [] → t.canvasCell r c = 0#8 := by
    intro t h
    unfold State.canvasCell
    rw [h]
    rfl
  have h0 : signedByte 0#8 = 0 := by decide
  have h8 : signedByte 8#8 = 8 := by decide
  by_cases h : (c : Int) < 264
  · right
    unfold cellAfterDraw
    simp only [h0, h8]
    rw [if_neg (by omega), e _ rfl]
  · left
    unfold cellAfterDraw
    simp only [here, h0]
    rw [if_neg (by omega), e _ rfl]

/-- One record runs, the second is END. -/
theorem witness_RunCompositesTheList :
    readyToRun.st = .idle ∧ readyToRun.script = [] ∧ (∀ j < 1, readyToRun.recordRuns j) ∧
    readyToRun.listRecord 1 = some #v[0xFF#8, 0#8, 0#8, 0#8, 0#8] := by
  refine ⟨rfl, rfl, fun j hj => ?_, by decide⟩
  obtain rfl : j = 0 := by omega
  exact ⟨#v[200#8, 0#8, 0#8, 4#8, 0#8], by decide, by decide, by decide⟩

/-- One record runs; the second does not fit, or has a tile missing. -/
theorem witness_RunFaultsAtTheFirstBadRecord :
    (let s := { readyToRun with srcLen := 9#32 }
     s.st = .idle ∧ s.script = [] ∧ (∀ j < 1, s.recordRuns j) ∧ s.listRecord 1 = none) ∧
    (let s := idleWith [200#8, 0#8, 0#8, 4#8, 0#8, 0#8, 0#8, 0#8, 0#8, 0#8]
     s.st = .idle ∧ s.script = [] ∧ (∀ j < 1, s.recordRuns j) ∧
      s.listRecord 1 = some #v[0#8, 0#8, 0#8, 0#8, 0#8] ∧
      s.tilesMissing (objFields #v[0#8, 0#8, 0#8, 0#8, 0#8]) 1 1) := by
  refine ⟨⟨rfl, rfl, fun j hj => ?_, by decide⟩, rfl, rfl, fun j hj => ?_, by decide, by decide⟩ <;>
  · obtain rfl : j = 0 := by omega
    exact ⟨#v[200#8, 0#8, 0#8, 4#8, 0#8], by decide, by decide, by decide⟩

theorem witness_RunAlwaysEnds : AtRecord atObject := by decide

theorem witness_TloadAlwaysEnds : readyToLoad.st = .idle ∧ readyToLoad.script = [] := by decide

/-- Two units that differ in canvas, OPC and NENT and hold the same inputs; and one whose RUN faults. -/
theorem witness_RunDependsOnItsInputsOnly :
    let t := { readyToRun with canvas := [(7, 1#8)], opc := 99#32, nent := 3#32, tlen := 5#32 }
    readyToRun.st = .idle ∧ t.st = .idle ∧ readyToRun.script = [] ∧ t.script = [] ∧
    SameRunInputs readyToRun t ∧ readyToRun ≠ t ∧
    after (step { readyToRun with srcLen := 4#32 }.runAccepted) (fun u => u.st == .fault) = true := by decide

theorem witness_CommandDispatch :
    (move readyToRun (.writeReg 0 1#32)).script = .move (.writeReg 0 1#32) :: [] ∧
    (move readyToRun (.writeReg 0 2#32)).st = .idle ∧
    (3#32 : Word) ≠ 1#32 ∧ (3#32 : Word) ≠ 2#32 ∧ (0#32 : Word) ≠ 1#32 ∧ (0#32 : Word) ≠ 2#32 ∧
    (move faultedUnit (.writeReg 0 1#32)).st = .fault ∧ (move atTile (.writeReg 0 1#32)).st = .tload ∧
    (move atEnd (.writeReg 0 1#32)).st = .run := by decide

/-- A record at the last address where the statement asks for, and a command. -/
theorem witness_PlacedWordRunsNext :
    (decodeTableWord 40 0x0004000005 = some (.objNull (here 5#8) 4#4 0#4) ∧
      Memory.wf State.reset.src ∧ { State.reset with opc := 0xFFFFFFFA#32 }.opc.toNat + 5 < 2 ^ 32) ∧
    decodeTableWord 32 1 = some .tload := by decide

theorem witness_RegisterReads :
    (move atEnd (.readReg 1)).script = .move (.readReg 1) :: [] ∧
    ((move readyToRun (.readReg 8)).busy = false ∧
      [0#32, readyToRun.statusWord, readyToRun.tsrc, readyToRun.tlen, readyToRun.osrc, readyToRun.nt,
        readyToRun.opc, readyToRun.nent, readyToRun.faddr][8]? = some 0#32) ∧
    ((move atEnd (.readReg 8)).busy = true ∧ 8 ≠ 1 ∧ 8 ≤ 8) ∧ 9 ≤ 9 := by decide

theorem witness_RegisterWrites :
    (move readyToRun (.writeReg 4 5#32)).script = .move (.writeReg 4 5#32) :: [] ∧
    (move readyToRun (.writeReg 4 5#32)).st = .idle ∧ 8 ∈ [1, 5, 6, 7, 8] ∧ 1 ∈ [1, 5, 6, 7, 8] ∧
    ((move faultedUnit (.writeReg 8 5#32)).st = .fault ∧ 8 ≤ 8) ∧
    (move atTile (.writeReg 8 5#32)).st = .tload ∧ 9 ≤ 9 := by decide

theorem witness_ReadPorts :
    (let s := { State.reset with nt := 2#32 }
     (move s (.readTile 1 63)).script = .move (.readTile 1 63) :: [] ∧ s.busy = false ∧ 1 < s.nt.toNat ∧ 63 < 64 ∧
      s.nt.toNat ≤ 2) ∧ (2 ≤ 1 ∨ 64 ≤ 64) ∧
    ((move faultedUnit (.readCanvas 511 511)).script = .move (.readCanvas 511 511) :: [] ∧
      faultedUnit.busy = false ∧ 511 < 512) ∧ (512 ≤ 512 ∨ 512 ≤ 0) ∧
    (after (State.reset.hostMove (.writeReg 2 5#32)) fun t => t == { State.reset with tsrc := 5#32 }) = true := by
  decide

theorem witness_HostChangesSource :
    (let s := { readyToRun with script := [.move (.changeSrc 8 [1#8, 2#8])] }
     s.script = .move (.changeSrc 8 [1#8, 2#8]) :: [] ∧ Memory.wf s.src ∧ s.busy = false ∧
      8 + [1#8, 2#8].length ≤ s.srcLen.toNat) ∧
    (let s := { readyToRun with script := [.move (.changeSrc 9 [1#8, 2#8])] }
     Memory.wf s.src ∧ s.busy = false ∧ s.srcLen.toNat < 9 + [1#8, 2#8].length) ∧
    (Memory.wf atEnd.src ∧ atEnd.busy = true) := by decide

theorem witness_BusyUnitRefusesTheHost :
    (move atTile (.readReg 1)).script = .move (.readReg 1) :: [] ∧ (move atTile (.readReg 1)).busy = true ∧
    (move atEnd (.readReg 5)).busy = true ∧ Move.readReg 5 ≠ .readReg 1 ∧ Move.readReg 5 ≠ .reset := by decide

theorem witness_FaultIsLeftOnlyByReset :
    (let s := move faultedUnit (.writeReg 0 1#32)
     s.st = .fault ∧ s.script.head? ≠ some (.move .reset) ∧ ∃ t, step s = .next t) ∧
    (move faultedUnit .reset).st = .fault ∧ (move faultedUnit .reset).script = .move .reset :: [] :=
  ⟨⟨rfl, by decide, _, rfl⟩, rfl, rfl⟩

/-- A step that enters FAULT from a state that meets the invariant, by the first row of the table. -/
theorem witness_EveryFaultIsARowOfTheTable :
    (let s := { atTile with srcLen := 63#32 }
     s.TilesSound ∧ s.st ≠ .fault ∧ s.nt.toNat < s.tlen.toNat / 32 ∧
      ∃ t, step s = .next t ∧ t.st = .fault) ∧
    (AtRecord { atEnd with srcLen := 4#32 } ∧ { atEnd with srcLen := 4#32 }.srcLen.toNat < atEnd.opc.toNat + 5) ∧
    (AtRecord atMissing ∧ atMissing.opc.toNat + 5 ≤ atMissing.srcLen.toNat ∧
      TilesMissingAt atMissing (recordFrom atMissing atMissing.opc.toNat)) ∧
    (let s := { readyToLoad with tileCap := 1 }
     s.st = .idle ∧ s.tileCap < s.tlen.toNat / 32) ∧
    ((move readyToRun (.writeReg 0 3#32)).st = .idle ∧
      (move readyToRun (.writeReg 0 3#32)).script = .move (.writeReg 0 3#32) :: []) := by
  refine ⟨⟨?_, by decide, by decide, ⟨_, rfl, by decide +kernel⟩⟩, by decide, by decide +kernel, by decide,
    by decide⟩
  unfold State.TilesSound State.tileAddress State.tileCount
  decide +kernel

theorem witness_FaultsArePrecise :
    atMissing.busy = true ∧ atMissing.script = [] ∧ ∃ t, step atMissing = .next t ∧ t.st = .fault :=
  ⟨rfl, rfl, _, rfl, by decide +kernel⟩

theorem witness_ResetInAnyState :
    (move atTile .reset).script = .move .reset :: [] ∧ atEnd.resetUnit.script = [] := by decide

theorem witness_ParametersAreFixed :
    (∃ t, step atEnd = .next t) ∧ ∀ a bytes, atEnd.script.head? ≠ some (.move (.changeSrc a bytes)) :=
  ⟨⟨_, rfl⟩, fun _ _ => by simp [atEnd, runWith, idleWith, State.reset]⟩

theorem witness_RunLeavesTheTileStore :
    atEnd.st = .run ∧ atEnd.script.head? ≠ some (.move .reset) ∧ ∃ t, step atEnd = .next t :=
  ⟨rfl, by decide, _, rfl⟩

theorem witness_TloadLeavesTheCanvas :
    atTile.st = .tload ∧ atTile.script.head? ≠ some (.move .reset) ∧ ∃ t, step atTile = .next t :=
  ⟨rfl, by decide, _, rfl⟩

/-- A state about to draw that meets every invariant, and takes a step. -/
theorem witness_StepKeepsTheInvariants :
    atEnd.MemorySound ∧ atEnd.CanvasSound ∧ atEnd.StatusSound ∧ atEnd.TilesSound ∧ atEnd.CursorSound ∧
    ∃ t, step atEnd = .next t := by
  refine ⟨?_, ⟨by decide, fun r c _ => .inl rfl⟩, ?_, ?_, ?_, _, rfl⟩
  · unfold State.MemorySound
    decide +kernel
  · unfold State.StatusSound
    decide
  · unfold State.TilesSound State.tileAddress State.tileCount
    decide +kernel
  · unfold State.CursorSound
    decide

theorem witness_StepKeepsMemoryForm : atEnd.MemorySound ∧ ∃ t, step atEnd = .next t :=
  ⟨witness_StepKeepsTheInvariants.1, _, rfl⟩

theorem witness_StepKeepsCanvasColours : atEnd.CanvasSound ∧ ∃ t, step atEnd = .next t :=
  ⟨witness_StepKeepsTheInvariants.2.1, _, rfl⟩

theorem witness_StatusLayoutAndFields : atEnd.StatusSound ∧ ∃ t, step atEnd = .next t :=
  ⟨witness_StepKeepsTheInvariants.2.2.1, _, rfl⟩

theorem witness_StepKeepsTileStoreBounds : atEnd.TilesSound ∧ ∃ t, step atEnd = .next t :=
  ⟨witness_StepKeepsTheInvariants.2.2.2.1, _, rfl⟩

theorem witness_StepKeepsTheCursor : atEnd.CursorSound ∧ ∃ t, step atEnd = .next t :=
  ⟨witness_StepKeepsTheInvariants.2.2.2.2.1, _, rfl⟩

end Tests
end Sys2Proof
end

section
/-! The STATUS word and the state after reset (10_state.md R14, R20, R31): the layout of STATUS in
arithmetic, and the invariant `StatusSound` kept by every step, effect by effect. -/

namespace Sys2Proof
namespace Machine

variable {s t : State}

/-! ## The layout of STATUS -/

theorem UnitState.code_lt (u : UnitState) : u.code < 4 := by cases u <;> decide

theorem Cause.code_lt (c : Cause) : c.code < 16 := by cases c <;> decide

theorem FaultOp.code_lt (f : FaultOp) : f.code < 4 := by cases f <;> decide

/-- The three fields do not overflow the register, so STATUS as a number is their plain sum. -/
theorem State.statusWord_toNat (s : State) :
    s.statusWord.toNat = s.st.code + s.cause.code * 2 ^ 4 + s.fop.code * 2 ^ 8 := by
  have hst := s.st.code_lt
  have hcause := s.cause.code_lt
  have hfop := s.fop.code_lt
  rw [State.statusWord, BitVec.toNat_ofNat, Nat.mod_eq_of_lt (by omega)]

/-- Each field of STATUS lies where R20 puts it, and every other bit is 0. -/
theorem State.statusWord_fields (s : State) :
    s.statusWord.toNat % 4 = s.st.code ∧ s.statusWord.toNat / 4 % 4 = 0 ∧
    s.statusWord.toNat / 16 % 16 = s.cause.code ∧ s.statusWord.toNat / 256 % 4 = s.fop.code ∧
    s.statusWord.toNat / 1024 = 0 := by
  have hst := s.st.code_lt
  have hcause := s.cause.code_lt
  have hfop := s.fop.code_lt
  rw [s.statusWord_toNat]
  omega

/-! ## The state after reset -/

theorem State.reset_readReg (r : Reg) : State.reset.readReg r = 0#32 := by cases r <;> rfl

/-- NT is 0 after reset, so no slot is readable. -/
theorem State.reset_hostReadTile (n p : Nat) :
    State.reset.hostReadTile n p = .refused (.tilePortRange n p) := by
  have hbusy : State.reset.busy = false := rfl
  simp [State.hostReadTile, State.unlessBusy, hbusy]

theorem State.reset_canvasCell (r c : Nat) : State.reset.canvasCell r c = 0#8 := rfl

/-! ## When a state's fault record is sound -/

theorem faultOp_ne_none (u : UnitState) (c : Cause) : faultOp u c ≠ .none := by
  unfold faultOp
  split
  · decide
  · split <;> decide

/-- A state outside FAULT is sound when its fault record is empty; OPC does not matter. -/
theorem State.statusSound_of_no_fault (hst : s.st ≠ .fault) (hcause : s.cause = .none)
    (hfop : s.fop = .none) (hfaddr : s.faddr = 0#32) : s.StatusSound :=
  ⟨fun _ => ⟨hcause, hfop, hfaddr⟩, fun h => absurd h hst, fun h => by simp [hcause] at h⟩

theorem State.reset_statusSound : State.reset.StatusSound :=
  State.statusSound_of_no_fault (by simp) rfl rfl rfl

theorem State.resetUnit_statusSound (s : State) : s.resetUnit.StatusSound :=
  State.statusSound_of_no_fault (by simp) rfl rfl rfl

/-- The fault entry (R116) leaves a sound record when it names a cause, and a fault of RUN its OPC. -/
theorem State.raise_statusSound {c : Cause} {addr : Word} (hc : c ≠ .none)
    (haddr : c = .shortReadOam ∨ c = .tileRange → addr = s.opc) : (s.raise c addr).StatusSound :=
  ⟨fun h => absurd rfl h, fun _ => ⟨hc, faultOp_ne_none s.st c⟩, haddr⟩

/-- A change from outside FAULT to outside FAULT that leaves the fault record alone. -/
theorem State.StatusSound.of_not_fault (hs : s.StatusSound) (hst : s.st ≠ .fault)
    (ht : t.st ≠ .fault) (hcause : t.cause = s.cause) (hfop : t.fop = s.fop)
    (hfaddr : t.faddr = s.faddr) : t.StatusSound := by
  obtain ⟨hcause₀, hfop₀, hfaddr₀⟩ := hs.1 hst
  exact State.statusSound_of_no_fault ht (hcause.trans hcause₀) (hfop.trans hfop₀)
    (hfaddr.trans hfaddr₀)

/-- TLOAD's acceptance in IDLE: busy with an empty record, or the fault TILE_CAP (R64). -/
theorem State.StatusSound.tloadAccepted (hs : s.StatusSound) (hst : s.st = .idle) :
    s.tloadAccepted.StatusSound := by
  rcases Nat.lt_or_ge s.tileCap s.tileCount with hcap | hcap
  · rw [State.tloadAccepted_of_lt hcap]
    exact State.raise_statusSound (by decide) (by simp)
  · rw [State.tloadAccepted_of_le hcap]
    exact hs.of_not_fault (by simp [hst]) (by simp) rfl rfl rfl

/-! ## Every step keeps the fault record sound -/

theorem UnitEffect.keeps_statusSound (h : UnitEffect s t) (hs : s.StatusSound) :
    t.StatusSound := by
  cases h with
  | wait _ h => exact h ▸ hs
  | loadDone hst _ h => subst h; exact hs.of_not_fault (by simp [hst]) (by simp) rfl rfl rfl
  | loadTile hst _ _ h => subst h; exact hs.of_not_fault (by simp [hst]) (by simp [hst]) rfl rfl rfl
  | loadShort _ _ _ h => subst h; exact State.raise_statusSound (by decide) (by simp)
  | recordShort _ _ h => subst h; exact State.raise_statusSound (by decide) fun _ => rfl
  | endList hst _ h => subst h; exact hs.of_not_fault (by simp [hst]) (by simp) rfl rfl rfl
  | tileRange _ _ o wt ht _ h => subst h; exact State.raise_statusSound (by decide) fun _ => rfl
  | draw hst _ o wt ht _ _ _ h =>
    subst h; exact hs.of_not_fault (by simp [hst]) (by simp [hst]) rfl rfl rfl

/-- `StatusSound` reads none of the fields a register write, a read or a change of SRC touches, so
there the invariant of `s` is that of `t` as it stands. -/
theorem MoveEffect.keeps_statusSound {m : Move} (h : MoveEffect m s t) (hs : s.StatusSound) :
    t.StatusSound := by
  cases h with
  | read _ r h => subst h; exact hs
  | ignored n v _ h => subst h; exact hs
  | writeTsrc v _ _ h => subst h; exact hs
  | writeTlen v _ _ h => subst h; exact hs
  | writeOsrc v _ _ h => subst h; exact hs
  | tload _ hst h => subst h; exact hs.tloadAccepted hst
  | run _ hst h => subst h; exact hs.of_not_fault (by simp [hst]) (by simp) rfl rfl rfl
  | illegalCmd c _ _ _ _ h => subst h; exact State.raise_statusSound (by decide) (by simp)
  | changeSrc a bytes _ _ _ h => subst h; exact hs
  | reset _ h => subst h; exact s.resetUnit_statusSound

/-- Taking a turn off the script touches no field of the fault record, so each effect is applied to
the state with the rest of the script. -/
theorem step_keeps_statusSound (hs : s.StatusSound) (h : step s = .next t) : t.StatusSound := by
  obtain ⟨sc, -, hunit⟩ | ⟨rest, -, -, rfl⟩ | ⟨m, rest, -, hmove⟩ := step_effect h
  · exact hunit.keeps_statusSound hs
  · exact hs
  · exact hmove.keeps_statusSound hs

end Machine

namespace Certificates

open Machine

/-- Settles O57: the codes are the rule's by evaluation, the layout is arithmetic on the sum of the
three fields, and the invariant is kept by each effect a step can have. -/
theorem statusLayoutAndFields : Obligations.StatusLayoutAndFields :=
  ⟨rfl, rfl, rfl, rfl, State.reset_statusSound, State.statusWord_fields,
    fun _ _ => step_keeps_statusSound⟩

/-- Settles O50, each clause by the lemma on the reset state. -/
theorem resetStateValues : Obligations.ResetStateValues :=
  ⟨rfl, rfl, rfl, rfl, State.reset_readReg, State.reset_hostReadTile, State.reset_canvasCell, rfl⟩

end Certificates
end Sys2Proof
end

section
/-! Records as bytes, as a 40-bit word and as rows of the opcode table (30_encoding.md R45 to R55), and
the record step at a byte 0xFF (R53). -/

namespace Sys2Proof

/-! ## Bit fields of a byte in arithmetic -/

theorem lowNibble_toNat (b : Byte) : (lowNibble b).toNat = b.toNat % 16 := by
  simp [lowNibble]

theorem highNibble_toNat (b : Byte) : (highNibble b).toNat = b.toNat / 16 := by
  have hb := b.isLt
  simp only [highNibble, BitVec.extractLsb'_toNat, Nat.shiftRight_eq_div_pow]
  omega

/-- Bit `i` of a word as a digit of its number. -/
theorem getLsbD_iff_digit {w : Nat} (x : BitVec w) (i : Nat) :
    x.getLsbD i = true ↔ x.toNat / 2 ^ i % 2 = 1 := by
  rw [← BitVec.testBit_toNat, Nat.testBit_eq_decide_div_mod_eq, decide_eq_true_iff]

/-- Two's complement on 8 bits (R9), as the statements write it. -/
theorem sext8_eq_signedByte (b : Byte) : sext8 b = Certificates.signedByte b := by
  rw [sext8, Certificates.signedByte, BitVec.toInt_eq_toNat_cond]
  split <;> split <;> omega

/-! ## The record as a word (R55) -/

theorem toNat_append_eq_add {m n : Nat} (x : BitVec m) (y : BitVec n) :
    (x ++ y).toNat = x.toNat * 2 ^ n + y.toNat := by
  rw [BitVec.toNat_append, ← Nat.shiftLeft_add_eq_or_of_lt y.isLt, Nat.shiftLeft_eq]

theorem recordWord_toNat (r : Record) :
    (recordWord r).toNat = r[0].toNat + r[1].toNat * 2 ^ 8 + r[2].toNat * 2 ^ 16 +
      r[3].toNat * 2 ^ 24 + r[4].toNat * 2 ^ 32 := by
  simp only [recordWord, toNat_append_eq_add]
  omega

/-- Equal words hold equal bytes. -/
theorem recordWord_inj {r q : Record} :
    recordWord r = recordWord q ↔
      r[0] = q[0] ∧ r[1] = q[1] ∧ r[2] = q[2] ∧ r[3] = q[3] ∧ r[4] = q[4] := by
  simp only [← BitVec.toNat_inj, recordWord_toNat]
  omega

/-- A mask written as a record acts byte by byte. -/
theorem recordWord_and (r q : Record) :
    recordWord r &&& recordWord q =
      recordWord #v[r[0] &&& q[0], r[1] &&& q[1], r[2] &&& q[2], r[3] &&& q[3], r[4] &&& q[4]] := by
  refine (BitVec.and_append ..).trans ?_
  simp only [BitVec.and_append]
  rfl

/-- A field within a record's word is read off the sum of its bytes. -/
theorem recordWord_extractLsb'_toNat (r : Record) (start len : Nat) :
    ((recordWord r).extractLsb' start len).toNat =
      (r[0].toNat + r[1].toNat * 2 ^ 8 + r[2].toNat * 2 ^ 16 + r[3].toNat * 2 ^ 24 +
        r[4].toNat * 2 ^ 32) / 2 ^ start % 2 ^ len := by
  rw [BitVec.extractLsb'_toNat, Nat.shiftRight_eq_div_pow, recordWord_toNat]

/-- Bit `i` of byte 3 is bit `24 + i` of the word. -/
theorem recordWord_getLsbD_byte3 (r : Record) {i : Nat} (hi : i < 8) :
    r[3].getLsbD i = (recordWord r).getLsbD (24 + i) := by
  have hbyte : r[3] = (recordWord r).extractLsb' 24 8 := by
    have h0 := r[0].isLt
    have h1 := r[1].isLt
    have h2 := r[2].isLt
    rw [← BitVec.toNat_inj, recordWord_extractLsb'_toNat]
    omega
  simp [hbyte, hi]

theorem recordWord_fields (r : Record) :
    (objFields r).ti = (recordWord r).extractLsb' 0 8 ∧
    (objFields r).x = (recordWord r).extractLsb' 8 8 ∧
    (objFields r).y = (recordWord r).extractLsb' 16 8 ∧
    sizeClass r = (recordWord r).extractLsb' 24 4 ∧
    (objFields r).hf = (recordWord r).getLsbD 30 ∧
    (objFields r).vf = (recordWord r).getLsbD 31 ∧
    shapeModifier r = (recordWord r).extractLsb' 32 4 ∧
    (objFields r).pb = (recordWord r).extractLsb' 36 4 := by
  have h0 := r[0].isLt
  have h1 := r[1].isLt
  have h2 := r[2].isLt
  have h3 := r[3].isLt
  have h4 := r[4].isLt
  refine ⟨?_, ?_, ?_, ?_, recordWord_getLsbD_byte3 r (by decide),
    recordWord_getLsbD_byte3 r (by decide), ?_, ?_⟩ <;>
  · simp only [← BitVec.toNat_inj, recordWord_extractLsb'_toNat, objFields, sizeClass, shapeModifier,
      lowNibble_toNat, highNibble_toNat]
    omega

/-! ## The rows of the opcode table (R55) -/

/-- The row of END, mask and match 0xFF, fits exactly the records whose byte 0 is 0xFF. -/
theorem endRow_matches (r : Record) :
    recordWord r &&& 0x00000000FF#40 = 0x00000000FF#40 ↔ r[0] = 0xFF#8 := by
  have hmask : 0x00000000FF#40 = recordWord #v[0xFF#8, 0#8, 0#8, 0#8, 0#8] := by decide
  have hall : r[0] &&& 0xFF#8 = r[0] := BitVec.and_allOnes
  rw [hmask, recordWord_and, recordWord_inj]
  simp [hall]

@[simp] theorem keyRow_mnemonic (mnemonic : String) (sz sh : Nat) :
    (keyRow mnemonic sz sh).mnemonic = mnemonic := rfl

/-- The row of a key fits exactly the records of that size class and shape modifier. -/
theorem keyRow_matches (r : Record) (mnemonic : String) {sz sh : Nat} (hsz : sz < 16) (hsh : sh < 16) :
    recordWord r &&& (keyRow mnemonic sz sh).mask = (keyRow mnemonic sz sh).pattern ↔
      (shapeModifier r).toNat = sh ∧ (sizeClass r).toNat = sz := by
  have hmask : (keyRow mnemonic sz sh).mask = recordWord #v[0#8, 0#8, 0#8, 0x0F#8, 0x0F#8] :=
    show 0x0F0F000000#40 = _ by decide
  have hnibble (b : Byte) : (b &&& 0x0F#8).toNat = b.toNat % 16 :=
    Nat.and_two_pow_sub_one_eq_mod b.toNat 4
  rw [hmask, recordWord_and, ← BitVec.toNat_inj, recordWord_toNat]
  simp only [Vector.getElem_mk, List.getElem_toArray, List.getElem_cons_zero, List.getElem_cons_succ,
    BitVec.and_zero, BitVec.toNat_ofNat, Nat.reducePow, Nat.zero_mod, zero_mul, zero_add, add_zero,
    keyRow, shapeModifier, sizeClass, lowNibble_toNat, hnibble]
  omega

/-- Beyond END, the rows of the keys and the cases of `objForm` ask about the same two nibbles, so the
first row that fits is that of the form the decoder builds. -/
theorem tableLookup_eq_mnemonicOf_decodeRecord (r : Record) :
    tableLookup r = some (mnemonicOf (decodeRecord r)) := by
  unfold tableLookup decodeRecord
  by_cases hend : r[0] = 0xFF#8
  · simp [recordTable, hend, (endRow_matches r).2 hend, mnemonicOf]
  · have hrow := (endRow_matches r).not.2 hend
    rw [if_neg hend, recordTable, List.find?_cons_of_neg (by simpa using hrow)]
    unfold objForm
    split <;> simp_all [keyRow_matches, mnemonicOf]

/-! ## The ignored bits (R48) -/

/-- The decoder reads from byte 3 its low nibble and bits 6 and 7. -/
theorem decodeRecord_congr {r q : Record} (h0 : r[0] = q[0]) (h1 : r[1] = q[1]) (h2 : r[2] = q[2])
    (hsz : lowNibble r[3] = lowNibble q[3]) (hhf : r[3].getLsbD 6 = q[3].getLsbD 6)
    (hvf : r[3].getLsbD 7 = q[3].getLsbD 7) (h4 : r[4] = q[4]) : decodeRecord r = decodeRecord q := by
  simp only [decodeRecord, objFields, sizeClass, shapeModifier, h0, h1, h2, hsz, hhf, hvf, h4]

/-- The mask 0xCF keeps everything the decoder reads from byte 3. -/
theorem fields_of_ignoredBits_cleared (b : Byte) :
    lowNibble (b &&& 0xCF#8) = lowNibble b ∧ (b &&& 0xCF#8).getLsbD 6 = b.getLsbD 6 ∧
      (b &&& 0xCF#8).getLsbD 7 = b.getLsbD 7 := by
  revert b; decide

theorem decodeRecord_eq_of_ignoredBits {r q : Record} (h0 : r[0] = q[0]) (h1 : r[1] = q[1])
    (h2 : r[2] = q[2]) (h3 : r[3] &&& 0xCF#8 = q[3] &&& 0xCF#8) (h4 : r[4] = q[4]) :
    decodeRecord r = decodeRecord q := by
  obtain ⟨hszr, hhfr, hvfr⟩ := fields_of_ignoredBits_cleared r[3]
  obtain ⟨hszq, hhfq, hvfq⟩ := fields_of_ignoredBits_cleared q[3]
  rw [h3] at hszr hhfr hvfr
  exact decodeRecord_congr h0 h1 h2 (hszr.symm.trans hszq) (hhfr.symm.trans hhfq)
    (hvfr.symm.trans hvfq) h4

theorem flipSizeByte_toNat (hf vf : Bool) (sz : Nibble) :
    (flipSizeByte hf vf sz).toNat = (if vf then 128 else 0) + (if hf then 64 else 0) + sz.toNat := by
  revert hf vf sz; decide

theorem flipSizeByte_and_ignored (hf vf : Bool) (sz : Nibble) :
    flipSizeByte hf vf sz &&& 0x30#8 = 0#8 := by
  revert hf vf sz; decide

/-- The sum of R58 for byte 3 is the byte the encoder builds from its bit fields. -/
theorem ofNat_flipSize {sz : Nat} (hf vf : Bool) (hsz : sz ≤ 15) :
    BitVec.ofNat 8 ((if vf then 128 else 0) + (if hf then 64 else 0) + sz) =
      flipSizeByte hf vf (BitVec.ofNat 4 sz) := by
  rw [← BitVec.toNat_inj, flipSizeByte_toNat, BitVec.toNat_ofNat, BitVec.toNat_ofNat]
  split <;> split <;> omega

/-- Byte 3 of an assembled OBJ is the one the encoder builds (R58). -/
theorem byte3_of_assembleObj {ti : Nat} {x y : Int} {sz sh pb : Nat} {h v : Bool} {r : Record}
    (hr : assembleObj ti x y sz sh pb h v = some r) :
    r[3] = flipSizeByte h v (BitVec.ofNat 4 sz) := by
  unfold assembleObj at hr
  split at hr
  case isTrue hrange =>
    obtain ⟨-, -, -, hsz, -⟩ := hrange
    cases hr
    exact ofNat_flipSize h v hsz
  case isFalse => cases hr

/-! ## The shape table (R51, R52) -/

theorem shapeTable_of_not_key {sz sh : Nibble} (h : ¬ isShapeKey sz sh) :
    Config.shapeTable sz sh = none := by
  revert sz sh; decide

/-! ## END (R53) -/

/-- No OBJ form is END. -/
theorem objForm_ne_endList (o : ObjFields) (sz sh : Nibble) : objForm o sz sh ≠ .endList := by
  unfold objForm
  split <;> simp

theorem decodeRecord_eq_endList (r : Record) : decodeRecord r = .endList ↔ r[0] = Config.endMark := by
  unfold decodeRecord
  split
  case isTrue h => simp [h]
  case isFalse h => simpa [h] using objForm_ne_endList _ _ _

namespace Machine

variable {s : State}

theorem shapeOf_of_not_key {sz sh : Nibble} (h : ¬ isShapeKey sz sh) : shapeOf sz sh = (0, 0) := by
  rw [shapeOf, shapeTable_of_not_key h, Option.getD_none]

theorem execEndList_of_run (hst : s.st = .run) :
    execEndList s = .next { s.advance with st := .idle } := if_pos hst

/-- The record step on five bytes that exist runs the record they decode to (R70). -/
theorem State.recordStep_of_le (h : s.opc.toNat + 5 ≤ s.srcLen.toNat) :
    s.recordStep = exec (decodeRecord (Certificates.recordFrom s s.opc.toNat)) s := by
  rw [State.recordStep, State.memRead_of_le h]
  rfl

/-- The record step on five bytes that do not all exist is a short read (R70). -/
theorem State.recordStep_of_lt (h : s.srcLen.toNat < s.opc.toNat + 5) :
    s.recordStep = .next (s.raise .shortReadOam s.opc) := by
  rw [State.recordStep, State.memRead_of_lt h]

/-- The fault entry of RUN (R116), as the statements write it. -/
theorem State.raise_of_run (hst : s.st = .run) {c : Cause} (hc : c ≠ .tileCap) (addr : Word) :
    s.raise c addr = Certificates.faulted s c .run addr := by
  simp [State.raise, Certificates.faulted, faultOp, hst, hc]

end Machine

namespace Certificates

open Machine

/-- Settles O5: the fields and the rows are read off the sum of the bytes, and the rows of the keys
are the cases of the decoder. -/
theorem recordDecodeFollowsTheTable : Obligations.RecordDecodeFollowsTheTable :=
  ⟨recordWord_toNat, recordWord_fields, by decide, tableLookup_eq_mnemonicOf_decodeRecord⟩

/-- Settles O6: the mask keeps every bit the decoder reads, and the assembler's byte 3 is the
encoder's. -/
theorem ignoredBitsTakeNoPart : Obligations.IgnoredBitsTakeNoPart := by
  refine ⟨fun r q => decodeRecord_eq_of_ignoredBits, fun ti x y sz sh pb h v r hr => ?_⟩
  rw [byte3_of_assembleObj hr, flipSizeByte_and_ignored]

/-- Settles O7: nibbles and bits of a byte as quotients and remainders of its number. -/
theorem recordFieldsByByte : Obligations.RecordFieldsByByte := by
  refine ⟨fun r => ⟨rfl, sext8_eq_signedByte _, sext8_eq_signedByte _, lowNibble_toNat _,
    getLsbD_iff_digit _ 6, ?_, lowNibble_toNat _, highNibble_toNat _⟩, fun sz sh hmiss => ?_⟩
  · have h3 := r[3].isLt
    have hbit := getLsbD_iff_digit r[3] 7
    rw [objFields, hbit]
    omega
  · exact shapeOf_of_not_key (by omega)

/-- Settles O8: the 12 entries and the count by evaluation, the other pairs by the miss of the table. -/
theorem shapeTableEntries : Obligations.ShapeTableEntries :=
  ⟨by decide, fun _ _ h => ⟨shapeTable_of_not_key h, shapeOf_of_not_key h⟩, by decide +kernel⟩

/-- Settles O29: an OBJ form is never END, and the record step at END reads nothing but byte 0. -/
theorem byteZeroAloneDecidesEnd : Obligations.ByteZeroAloneDecidesEnd := by
  refine ⟨decodeRecord_eq_endList,
    fun s ⟨hst, hscript⟩ hbyte => ⟨fun hfit => ?_, fun hshort => ?_⟩⟩
  · have hend : (recordFrom s s.opc.toNat)[0] = Config.endMark := by simpa [recordFrom] using hbyte
    rw [step_of_run hscript hst, State.recordStep_of_le hfit, exec_decodeRecord_of_eq hend,
      execEndList_of_run hst]
    rfl
  · rw [step_of_run hscript hst, State.recordStep_of_lt hshort, State.raise_of_run hst (by decide)]

end Certificates
end Sys2Proof
end

section
/-! The tile decoder TD (40_tile_decode.md R62, R64, R65): the pixels of a decoded tile as quotients and
remainders of its bytes, what a store into a slot changes, and the outcomes of TLOAD and of its step. -/

namespace Sys2Proof
namespace Machine

variable {s : State}

/-! ## The pixels of a decoded tile (R62) -/

/-- Pixel `p` of the decoded tile is a digit, in base 16, of byte `p / 2`. -/
theorem tileDecode4bpp_getElem_toNat (b : TileBytes) {p : Nat} (hp : p < 64) :
    (tileDecode4bpp b)[p].toNat =
      if p % 2 = 0 then b[p / 2].toNat % 16 else b[p / 2].toNat / 16 := by
  simp only [tileDecode4bpp, Vector.getElem_ofFn]
  split
  · exact lowNibble_toNat _
  · exact highNibble_toNat _

/-! ## The slots after a store (R65) -/

/-- The slot stored to is slot NT, and it reads as the stored tile. -/
theorem State.storeTile_tilePixel_self (hwf : Mem.wf blankTile s.tiles) (px : Tile) {p : Nat}
    (hp : p < 64) : (s.storeTile px).tilePixel s.nt.toNat p = px[p] := by
  rw [State.tilePixel, State.storeTile_tiles, Mem.read_write hwf.1, if_pos rfl,
    Vector.getElem?_eq_getElem hp, Option.getD_some]

theorem State.storeTile_tilePixel_of_ne (hwf : Mem.wf blankTile s.tiles) (px : Tile) {n : Nat}
    (hn : n ≠ s.nt.toNat) (p : Nat) : (s.storeTile px).tilePixel n p = s.tilePixel n p := by
  rw [State.tilePixel, State.storeTile_tiles, Mem.read_write hwf.1, if_neg hn.symm, State.tilePixel]

/-! ## A command in each state of the unit (R104, R110) -/

theorem State.command_of_idle (hst : s.st = .idle) (a : State) : s.command a = .next a := by
  rw [State.command, hst]

theorem State.command_of_fault (hst : s.st = .fault) (a : State) : s.command a = .next s := by
  rw [State.command, hst]

theorem State.command_of_busy (hst : s.st = .tload ∨ s.st = .run) (a : State) :
    s.command a = .refused .hostMoveWhileBusy := by
  rcases hst with hst | hst <;> rw [State.command, hst]

theorem exec_tload (s : State) : exec .tload s = s.command s.tloadAccepted := rfl

/-! ## The fault entry (R116) of TLOAD, as the statements write it -/

/-- TILE_CAP belongs to TLOAD in every state: it is raised at the acceptance, in IDLE. -/
theorem State.raise_of_tileCap (s : State) (addr : Word) :
    s.raise .tileCap addr = Certificates.faulted s .tileCap .tload addr := by
  simp [State.raise, Certificates.faulted, faultOp]

theorem State.raise_of_tload (hst : s.st = .tload) (c : Cause) (addr : Word) :
    s.raise c addr = Certificates.faulted s c .tload addr := by
  simp [State.raise, Certificates.faulted, faultOp, hst]

/-! ## The three outcomes of a step of TLOAD (R65) -/

theorem State.tileStep_of_done (hdone : s.nt.toNat = s.tileCount) :
    s.tileStep = { s with st := .idle } := if_pos hdone

theorem State.tileStep_of_lt (hmore : s.nt.toNat ≠ s.tileCount)
    (hshort : s.srcLen.toNat < s.tileAddress + 32) :
    s.tileStep = s.raise .shortReadTile (BitVec.ofNat 32 s.tileAddress) := by
  rw [State.tileStep, if_neg hmore, State.memRead_of_lt hshort]

/-- The tile stored is the region's tile NT: its bytes begin at `TSRC + 32 × NT`. -/
theorem State.tileStep_of_le (hmore : s.nt.toNat ≠ s.tileCount)
    (hfit : s.tileAddress + 32 ≤ s.srcLen.toNat) :
    s.tileStep = s.storeTile (s.regionTile s.nt.toNat) := by
  rw [State.tileStep, if_neg hmore, State.memRead_of_le hfit]
  rfl

/-- The pixels of tile `n` of the region, in the bytes of SRC they are decoded from. -/
theorem State.regionTile_getElem_toNat (s : State) (n : Nat) {p : Nat} (hp : p < 64) :
    (s.regionTile n)[p].toNat =
      if p % 2 = 0 then (s.srcByte (s.tsrc.toNat + 32 * n + p / 2)).toNat % 16
      else (s.srcByte (s.tsrc.toNat + 32 * n + p / 2)).toNat / 16 := by
  simp only [State.regionTile, tileDecode4bpp_getElem_toNat _ hp, Vector.getElem_ofFn]

/-- The address of the next tile is TSRC itself for the first one, and lies within SRC for every
other, since the tile before it was read from inside SRC (R65). -/
theorem State.TilesSound.tileAddress_le (h : s.TilesSound) (hst : s.st = .tload) :
    s.tileAddress ≤ max s.tsrc.toNat s.srcLen.toNat := by
  obtain ⟨-, -, hload⟩ := h
  obtain ⟨-, -, hread⟩ := hload hst
  rcases Nat.eq_zero_or_pos s.nt.toNat with hnt | hnt
  · simp [State.tileAddress, hnt]
  · exact le_max_of_le_right (hread hnt)

end Machine

namespace Certificates

open Machine

/-- Settles O13: the three outcomes are those of `tileStep`, the stored tile is the region's tile NT,
and a write to slot NT is seen at slot NT alone. -/
theorem tloadStep : Obligations.TloadStep := by
  intro s hst hscript hwf
  rw [step_of_tload hscript hst]
  refine ⟨fun hdone => ?_, fun hmore hshort => ?_, fun hmore hfit => ?_,
    fun hsound => hsound.tileAddress_le hst⟩
  · rw [State.tileStep_of_done hdone]
  · rw [State.tileStep_of_lt hmore hshort, State.raise_of_tload hst]
    rfl
  · rw [State.tileStep_of_le hmore hfit]
    refine ⟨_, rfl, rfl, fun p hp => ?_,
      fun n p hn => State.storeTile_tilePixel_of_ne hwf _ hn p⟩
    rw [State.storeTile_tilePixel_self hwf _ hp, State.regionTile_getElem_toNat s _ hp]

/-- Settles O10: pixels `2i` and `2i + 1` are the two digits of byte `i`. -/
theorem tileDecodeNibbleOrder : Obligations.TileDecodeNibbleOrder := by
  intro b i
  have hi := i.isLt
  have heven : 2 * i.val / 2 = i.val := by omega
  have hodd : (2 * i.val + 1) / 2 = i.val := by omega
  constructor
  · rw [tileDecode4bpp_getElem_toNat b (by omega), if_pos (by omega)]
    simp only [heven, Fin.getElem_fin]
  · rw [tileDecode4bpp_getElem_toNat b (by omega), if_neg (by omega)]
    simp only [hodd, Fin.getElem_fin]

/-- Settles O12: a command acts by the state it meets, and in IDLE the region either fits the store or
not. -/
theorem tloadAcceptance : Obligations.TloadAcceptance := by
  intro s
  rw [exec_tload]
  refine ⟨fun hst hcap => ?_, fun hst hcap => ?_, fun hst => State.command_of_fault hst _,
    fun hst => State.command_of_busy hst _⟩
  · rw [State.command_of_idle hst, State.tloadAccepted_of_le hcap]
  · rw [State.command_of_idle hst, State.tloadAccepted_of_lt hcap, State.raise_of_tileCap]

end Certificates
end Sys2Proof
end

section
/-! The compositor SC (42_sprite_compositor.md R82, R86, R87, R88, R95, R97): the number of a biased pixel,
and the outcomes of an OBJ, of END and of RUN. -/

namespace Sys2Proof
namespace Machine

variable {s : State} {o : ObjFields} {wt ht : Nat}

/-! ## The palette bank offset (R88) -/

@[simp] theorem bias_zero (pb : Nibble) : bias 0#4 pb = 0#8 := if_pos rfl

/-- The sum of R88 does not wrap: `15 + 16 × 15 = 255`. -/
theorem bias_toNat {p : Nibble} (hp : p ≠ 0#4) (pb : Nibble) :
    (bias p pb).toNat = p.toNat + 16 * pb.toNat := by
  have hdigit := p.isLt
  have hbank := pb.isLt
  have hstride : Config.bankStride.toNat = 16 := rfl
  rw [bias, if_neg hp, BitVec.toNat_add, BitVec.toNat_mul, BitVec.toNat_setWidth, BitVec.toNat_setWidth,
    hstride]
  omega

/-! ## An OBJ in RUN (R86, R95, R96) -/

theorem execObj_of_missing (hst : s.st = .run) (hm : s.tilesMissing o wt ht) :
    execObj (wt, ht) o s = .next (Certificates.faulted s .tileRange .run s.opc) := by
  rw [execObj, if_pos hst, if_pos hm, State.raise_of_run hst (by decide)]

theorem execObj_of_not_missing (hst : s.st = .run) (hm : ¬ s.tilesMissing o wt ht) :
    execObj (wt, ht) o s = .next (s.drawn o wt ht) := by
  rw [execObj, if_pos hst, if_neg hm]

/-- A drawn object leaves the unit in RUN, so the range check alone leads to the fault. -/
theorem execObj_eq_faulted_iff (hst : s.st = .run) :
    execObj (wt, ht) o s = .next (Certificates.faulted s .tileRange .run s.opc) ↔
      s.tilesMissing o wt ht := by
  refine ⟨fun hfault => ?_, execObj_of_missing hst⟩
  by_contra hm
  rw [execObj_of_not_missing hst hm, Host.Outcome.next.injEq] at hfault
  have hrun : (s.drawn o wt ht).st = .run := hst
  rw [hfault] at hrun
  cases hrun

/-- A zero-sized object has no pixel, so its write set is empty (R95). -/
theorem State.drawn_zero_zero (s : State) (o : ObjFields) :
    s.drawn o 0 0 = { s with opc := s.opc + 5#32, nent := s.nent + 1#32 } := rfl

/-- What holds of every instruction that executes a block of the sizes of R51 holds of the 12 forms. -/
theorem forAllForms_of_execObj {P : Instr → ObjFields → Nat → Nat → Prop}
    (h : ∀ i o wt ht, 0 < wt * ht → wt ≤ 8 → (∀ s, exec i s = execObj (wt, ht) o s) → P i o wt ht) :
    Certificates.ForAllForms P := by
  intro o
  and_intros <;> exact h _ _ _ _ (by decide) (by decide) fun _ => rfl

theorem exec_objNull_of_wellFormed {sz sh : Nibble} (h : (Instr.objNull o sz sh).WellFormed)
    (s : State) : exec (.objNull o sz sh) s = execObj (0, 0) o s := by
  obtain ⟨-, hmiss⟩ := of_decide_eq_true h
  show execObj (shapeOf sz sh) o s = _
  rw [shapeOf_of_not_key hmiss]

theorem exec_run (s : State) : exec .run s = s.command s.runAccepted := rfl

end Machine

namespace Certificates

open Machine

/-- Settles O16: the sum is a number of two digits in base 16, and drawing writes no tile. -/
theorem paletteBankOffset : Obligations.PaletteBankOffset := by
  refine ⟨fun p pb => ⟨fun hp => by rw [hp, bias_zero], fun hp => ?_⟩, by decide, State.drawn_tiles⟩
  have hsum := bias_toNat hp pb
  have hdigit := p.isLt
  have hbank := pb.isLt
  have hpos : p.toNat ≠ 0 := fun h0 => hp (BitVec.eq_of_toNat_eq h0)
  omega

/-- Settles O17: the slot and the pixel index of `subPixel`, written out. -/
theorem subBitmapFromTiles : Obligations.SubBitmapFromTiles := fun _ _ _ _ _ => rfl

/-- Settles O23: a pair outside the table is a block of no tiles, which the range check never stops. -/
theorem zeroSizedObjectOnlyCounts : Obligations.ZeroSizedObjectOnlyCounts := by
  intro s o sz sh hst hwf
  rw [exec_objNull_of_wellFormed hwf, execObj_of_not_missing hst fun ⟨hpos, _⟩ => absurd hpos (by decide),
    State.drawn_zero_zero]

/-- Settles O24, by the outcome of END in RUN. -/
theorem endReturnsToIdle : Obligations.EndReturnsToIdle := fun _ hst => execEndList_of_run hst

/-- Settles O25: the blocks of the 12 forms are not empty, so their range check is the bound alone. -/
theorem missingTilesFault : Obligations.MissingTilesFault := by
  refine ⟨fun _ _ _ _ => rfl, forAllForms_of_execObj fun i o wt ht hpos _ hexec s hst => ?_⟩
  rw [hexec, execObj_eq_faulted_iff hst]
  exact and_iff_right hpos

/-- Settles O26: a command acts by the state it meets, and RUN's acceptance leaves no cell listed. -/
theorem runAcceptance : Obligations.RunAcceptance := by
  intro s
  rw [exec_run]
  exact ⟨fun hst => ⟨s.runAccepted, State.command_of_idle hst _, rfl, fun _ _ => rfl⟩,
    fun hst => State.command_of_fault hst _, fun hst => State.command_of_busy hst _⟩

end Certificates
end Sys2Proof
end

section
/-! The host's commands (43_host_commands.md R102, R103, R107, R109): the turn of a host's move, which
numbers are registers, and what register reads, register writes, the CMD dispatch and the two read ports
answer in each state of the unit. -/

namespace Sys2Proof
namespace Machine

variable {s t : State}

/-! ## The host's turn -/

theorem step_of_move {m : Move} {rest : List Turn} (hs : s.script = .move m :: rest) :
    step s = { s with script := rest }.hostMove m := by
  rw [step, State.takeTurn, hs]

theorem State.unlessBusy_of_not_busy (hb : s.busy = false) (out : Host.Outcome State Fault Refusal) :
    s.unlessBusy out = out := by
  rw [State.unlessBusy, hb, if_neg Bool.false_ne_true]

theorem State.unlessBusy_of_busy (hb : s.busy = true) (out : Host.Outcome State Fault Refusal) :
    s.unlessBusy out = .refused .hostMoveWhileBusy := if_pos hb

/-! ## Register numbers (R14) -/

theorem regOfNumber_of_nine_le {n : Nat} (h : 9 ≤ n) : regOfNumber n = none := by
  obtain ⟨k, rfl⟩ := Nat.exists_eq_add_of_le' h
  rfl

theorem exists_regOfNumber_of_le_eight {n : Nat} (h : n ≤ 8) : ∃ r, regOfNumber n = some r := by
  interval_cases n <;> exact ⟨_, rfl⟩

theorem eq_one_of_regOfNumber_eq_status {n : Nat} (h : regOfNumber n = some .status) : n = 1 := by
  unfold regOfNumber at h
  split at h <;> cases h
  rfl

/-- The values of the registers in the order of their numbers. -/
theorem State.map_readReg_regOfNumber (s : State) (n : Nat) :
    (regOfNumber n).map s.readReg =
      [0#32, s.statusWord, s.tsrc, s.tlen, s.osrc, s.nt, s.opc, s.nent, s.faddr][n]? := by
  rcases Nat.lt_or_ge n 9 with h | h
  · interval_cases n <;> rfl
  · rw [regOfNumber_of_nine_le h, List.getElem?_eq_none h]
    rfl

/-! ## Register reads (R102) -/

theorem State.hostReadReg_status (s : State) :
    s.hostReadReg 1 = .next (s.reply (.reg s.statusWord)) := rfl

theorem State.hostReadReg_of_not_busy {n : Nat} {r : Reg} (hr : regOfNumber n = some r)
    (hb : s.busy = false) : s.hostReadReg n = .next (s.reply (.reg (s.readReg r))) := by
  rw [State.hostReadReg, hr]
  cases r with
  | status => rfl
  | _ => exact State.unlessBusy_of_not_busy hb _

theorem State.hostReadReg_of_busy {n : Nat} {r : Reg} (hr : regOfNumber n = some r)
    (hstatus : n ≠ 1) (hb : s.busy = true) : s.hostReadReg n = .refused .hostMoveWhileBusy := by
  rw [State.hostReadReg, hr]
  cases r with
  | status => exact absurd (eq_one_of_regOfNumber_eq_status hr) hstatus
  | _ => exact State.unlessBusy_of_busy hb _

theorem State.hostReadReg_of_nine_le {n : Nat} (hn : 9 ≤ n) :
    s.hostReadReg n = .refused (.noSuchRegister n) := by
  rw [State.hostReadReg, regOfNumber_of_nine_le hn]

/-! ## Register writes (R103, R110) -/

section
variable {n : Nat} {v : Word}

theorem State.hostWriteReg_of_idle {r : Reg} (hr : regOfNumber n = some r) (hst : s.st = .idle) :
    s.hostWriteReg n v = s.idleWriteReg r v := by
  rw [State.hostWriteReg, hr, hst]

theorem State.hostWriteReg_of_fault (hn : n ≤ 8) (hst : s.st = .fault) :
    s.hostWriteReg n v = .next s := by
  obtain ⟨r, hr⟩ := exists_regOfNumber_of_le_eight hn
  rw [State.hostWriteReg, hr, hst]

theorem State.hostWriteReg_of_busy (hn : n ≤ 8) (hst : s.st = .tload ∨ s.st = .run) :
    s.hostWriteReg n v = .refused .hostMoveWhileBusy := by
  obtain ⟨r, hr⟩ := exists_regOfNumber_of_le_eight hn
  rcases hst with hst | hst <;> rw [State.hostWriteReg, hr, hst]

theorem State.hostWriteReg_of_nine_le (hn : 9 ≤ n) :
    s.hostWriteReg n v = .refused (.noSuchRegister n) := by
  rw [State.hostWriteReg, regOfNumber_of_nine_le hn]

/-- The read-only registers ignore a write in IDLE. -/
theorem State.hostWriteReg_readOnly (hn : n ∈ [1, 5, 6, 7, 8]) (hst : s.st = .idle) :
    s.hostWriteReg n v = .next s := by
  simp only [List.mem_cons, List.not_mem_nil, or_false] at hn
  rcases hn with rfl | rfl | rfl | rfl | rfl
  · exact State.hostWriteReg_of_idle (r := .status) rfl hst
  · exact State.hostWriteReg_of_idle (r := .nt) rfl hst
  · exact State.hostWriteReg_of_idle (r := .opc) rfl hst
  · exact State.hostWriteReg_of_idle (r := .nent) rfl hst
  · exact State.hostWriteReg_of_idle (r := .faddr) rfl hst

end

/-! ## The CMD dispatch (R104, R107) -/

theorem State.hostWriteReg_cmd {c : Word} (hst : s.st = .idle) :
    s.hostWriteReg 0 c = s.dispatchCommand c := State.hostWriteReg_of_idle (r := .cmd) rfl hst

theorem State.hostWriteReg_cmd_one (hst : s.st = .idle) : s.hostWriteReg 0 1#32 = exec .tload s :=
  State.hostWriteReg_cmd hst

theorem State.hostWriteReg_cmd_two (hst : s.st = .idle) : s.hostWriteReg 0 2#32 = exec .run s :=
  State.hostWriteReg_cmd hst

/-- ILLEGAL_CMD is raised in IDLE, where the fault entry names the dispatch (R116). -/
theorem State.hostWriteReg_cmd_illegal {c : Word} (h1 : c ≠ 1#32) (h2 : c ≠ 2#32)
    (hst : s.st = .idle) :
    s.hostWriteReg 0 c = .next (Certificates.faulted s .illegalCmd .dispatch 0#32) := by
  rw [State.hostWriteReg_cmd hst, State.dispatchCommand, decodeCommand, if_neg h1, if_neg h2]
  simp [State.raise, Certificates.faulted, faultOp, hst]

/-! ## The read ports (R109) -/

theorem State.hostReadTile_of_lt {n p : Nat} (hb : s.busy = false) (hn : n < s.nt.toNat) (hp : p < 64) :
    s.hostReadTile n p = .next (s.reply (.tile (s.tilePixel n p))) := by
  rw [State.hostReadTile, State.unlessBusy_of_not_busy hb, if_pos ⟨hn, hp⟩]

theorem State.hostReadTile_of_le {n p : Nat} (hb : s.busy = false) (h : s.nt.toNat ≤ n ∨ 64 ≤ p) :
    s.hostReadTile n p = .refused (.tilePortRange n p) := by
  rw [State.hostReadTile, State.unlessBusy_of_not_busy hb,
    if_neg (not_and_or.2 (h.imp not_lt_of_ge not_lt_of_ge))]

theorem State.hostReadCanvas_of_lt {r c : Nat} (hb : s.busy = false) (hr : r < 512) (hc : c < 512) :
    s.hostReadCanvas r c = .next (s.reply (.canvas (s.canvasCell r c))) := by
  rw [State.hostReadCanvas, State.unlessBusy_of_not_busy hb, if_pos ⟨hr, hc⟩]

theorem State.hostReadCanvas_of_le {r c : Nat} (hb : s.busy = false) (h : 512 ≤ r ∨ 512 ≤ c) :
    s.hostReadCanvas r c = .refused (.canvasPortRange r c) := by
  rw [State.hostReadCanvas, State.unlessBusy_of_not_busy hb,
    if_neg (not_and_or.2 (h.imp not_lt_of_ge not_lt_of_ge))]

/-- Of all the host's moves only a write to CMD and reset reach the tile store or the canvas. -/
theorem MoveEffect.keeps_tiles_canvas {m : Move} (h : MoveEffect m s t) (hreset : m ≠ .reset)
    (hcmd : ∀ v, m ≠ .writeReg 0 v) : t.tiles = s.tiles ∧ t.canvas = s.canvas := by
  cases h with
  | read _ r h => subst h; exact ⟨rfl, rfl⟩
  | ignored n v _ h => subst h; exact ⟨rfl, rfl⟩
  | writeTsrc v _ _ h => subst h; exact ⟨rfl, rfl⟩
  | writeTlen v _ _ h => subst h; exact ⟨rfl, rfl⟩
  | writeOsrc v _ _ h => subst h; exact ⟨rfl, rfl⟩
  | tload hm => exact absurd hm (hcmd _)
  | run hm => exact absurd hm (hcmd _)
  | illegalCmd c hm => exact absurd hm (hcmd c)
  | changeSrc a bytes _ _ _ h => subst h; exact ⟨rfl, rfl⟩
  | reset hm => exact absurd hm hreset

end Machine

namespace Certificates

open Machine

/-- Settles O43: the ports answer by their range checks, and no effect of a move but a command or reset
writes the tile store or the canvas. -/
theorem readPorts : Obligations.ReadPorts := by
  refine ⟨fun s n p rest hs hb => ?_, fun s r c rest hs hb => ?_, fun s t m hmove hreset hcmd =>
    (State.hostMove_effect m hmove).keeps_tiles_canvas hreset hcmd⟩
  · rw [step_of_move hs, State.hostMove]
    exact ⟨fun hn hp => State.hostReadTile_of_lt hb hn hp, fun h => State.hostReadTile_of_le hb h⟩
  · rw [step_of_move hs, State.hostMove]
    exact ⟨fun hr hc => State.hostReadCanvas_of_lt hb hr hc, fun h => State.hostReadCanvas_of_le hb h⟩

/-- Settles O39: in IDLE the write is dispatched by its value, in every other state by the state alone. -/
theorem commandDispatch : Obligations.CommandDispatch := by
  intro s c rest hs
  rw [step_of_move hs, State.hostMove]
  refine ⟨?_, ?_, fun hst h1 h2 => State.hostWriteReg_cmd_illegal h1 h2 hst,
    fun hst => State.hostWriteReg_of_fault (by decide) hst,
    fun hst => State.hostWriteReg_of_busy (by decide) hst⟩
  · rintro hst rfl
    exact State.hostWriteReg_cmd_one hst
  · rintro hst rfl
    exact State.hostWriteReg_cmd_two hst

/-- Settles O41: the list of values is the registers' in the order of their numbers, and STATUS alone is
read past the check for a busy unit. -/
theorem registerReads : Obligations.RegisterReads := by
  intro s n rest hs
  rw [step_of_move hs, State.hostMove]
  refine ⟨?_, fun hb v hv => ?_, fun hb hstatus hn => ?_, State.hostReadReg_of_nine_le⟩
  · rintro rfl
    exact State.hostReadReg_status _
  · rw [← State.map_readReg_regOfNumber] at hv
    obtain ⟨r, hr, rfl⟩ := Option.map_eq_some_iff.1 hv
    exact State.hostReadReg_of_not_busy hr hb
  · obtain ⟨r, hr⟩ := exists_regOfNumber_of_le_eight hn
    exact State.hostReadReg_of_busy hr hstatus hb

/-- Settles O42: in IDLE a write acts by its register, in every other state by the state alone. -/
theorem registerWrites : Obligations.RegisterWrites := by
  intro s n v rest hs
  rw [step_of_move hs, State.hostMove]
  refine ⟨?_, ?_, ?_, fun hst hn => State.hostWriteReg_readOnly hn hst, ?_,
    fun hst hn => State.hostWriteReg_of_fault hn hst,
    fun hst hn => State.hostWriteReg_of_busy hn hst, State.hostWriteReg_of_nine_le⟩
  · rintro hst rfl
    exact State.hostWriteReg_of_idle (r := .tsrc) rfl hst
  · rintro hst rfl
    exact State.hostWriteReg_of_idle (r := .tlen) rfl hst
  · rintro hst rfl
    exact State.hostWriteReg_of_idle (r := .osrc) rfl hst
  · rintro hst rfl
    exact State.hostWriteReg_cmd hst

end Certificates
end Sys2Proof
end

section
/-! Faults (60_exceptions.md R113, R116, R118): what is left to a step in FAULT, and the rows of the table
of causes, by which alone a step enters it. -/

namespace Sys2Proof
namespace Machine

variable {s t : State}

/-! ## A step in FAULT (R118) -/

/-- Only the waits are open to a unit in FAULT: every other effect needs TLOAD or RUN. -/
theorem UnitEffect.eq_of_fault (h : UnitEffect s t) (hst : s.st = .fault) : t = s := by
  cases h with
  | wait _ h => exact h
  | loadDone hbusy | loadTile hbusy | loadShort hbusy | recordShort hbusy | endList hbusy
  | tileRange hbusy | draw hbusy => cases hst.symm.trans hbusy

/-- Of the host's moves that are no reset, FAULT leaves the reads and the change of SRC. -/
theorem MoveEffect.frame_of_fault {m : Move} (h : MoveEffect m s t) (hst : s.st = .fault)
    (hreset : m ≠ .reset) : t = { s with src := t.src, replies := t.replies } := by
  cases h with
  | read _ r h => subst h; rfl
  | ignored n v _ h => subst h; rfl
  | changeSrc a bytes _ _ _ h => subst h; rfl
  | reset hm _ => exact absurd hm hreset
  | writeTsrc v _ hidle | writeTlen v _ hidle | writeOsrc v _ hidle | tload _ hidle | run _ hidle
  | illegalCmd c _ _ _ hidle => cases hst.symm.trans hidle

/-! ## The rows of the table of causes (R113) -/

/-- The fault entry of the dispatch (R116), as the statements write it. -/
theorem State.raise_of_idle (hst : s.st = .idle) {c : Cause} (hc : c ≠ .tileCap) (addr : Word) :
    s.raise c addr = Certificates.faulted s c .dispatch addr := by
  simp [State.raise, Certificates.faulted, faultOp, hst, hc]

/-- The range check of a record that is an OBJ, as the rows of the table write it. -/
theorem exec_decodeRecord_of_tilesMissingAt {r : Record} (hst : s.st = .run)
    (hm : Certificates.TilesMissingAt s r) :
    exec (decodeRecord r) s = .next (Certificates.faulted s .tileRange .run s.opc) := by
  rw [exec_decodeRecord_of_ne hm.1]
  exact execObj_of_missing hst hm.2

/-- A record without missing tiles leaves the unit in RUN, or in IDLE where it is END. -/
theorem tilesMissingAt_of_exec_fault {r : Record} (h : exec (decodeRecord r) s = .next t)
    (hst : s.st = .run) (ht : t.st = .fault) : Certificates.TilesMissingAt s r := by
  by_cases hend : r[0] = Config.endMark
  · rw [exec_decodeRecord_of_eq hend, execEndList_of_run hst] at h
    cases h
    cases ht
  · rw [exec_decodeRecord_of_ne hend] at h
    obtain ⟨-, ⟨hm, -⟩ | ⟨-, rfl⟩⟩ := execObj_next h
    · exact ⟨hend, hm⟩
    · cases hst.symm.trans ht

/-- The rows that a step of the unit raises, with their conditions. -/
inductive UnitFault (s t : State) : Prop where
  | shortReadTile (hst : s.st = .tload) (hmore : s.nt.toNat ≠ s.tileCount)
      (hshort : s.srcLen.toNat < s.tileAddress + 32)
      (h : t = Certificates.faulted s .shortReadTile .tload (BitVec.ofNat 32 s.tileAddress))
  | shortReadOam (hst : s.st = .run) (hshort : s.srcLen.toNat < s.opc.toNat + 5)
      (h : t = Certificates.faulted s .shortReadOam .run s.opc)
  | tileRange (hst : s.st = .run) (hfit : s.opc.toNat + 5 ≤ s.srcLen.toNat)
      (hm : Certificates.TilesMissingAt s (Certificates.recordFrom s s.opc.toNat))
      (h : t = Certificates.faulted s .tileRange .run s.opc)

theorem State.tileStep_fault (hst : s.st = .tload) (ht : s.tileStep.st = .fault) :
    UnitFault s s.tileStep := by
  by_cases hdone : s.nt.toNat = s.tileCount
  · rw [State.tileStep_of_done hdone] at ht
    cases ht
  rcases Nat.lt_or_ge s.srcLen.toNat (s.tileAddress + 32) with hshort | hfit
  · exact .shortReadTile hst hdone hshort
      ((State.tileStep_of_lt hdone hshort).trans (State.raise_of_tload hst _ _))
  · rw [State.tileStep_of_le hdone hfit] at ht
    cases hst.symm.trans ht

theorem State.recordStep_fault (hst : s.st = .run) (h : s.recordStep = .next t)
    (ht : t.st = .fault) : UnitFault s t := by
  rcases Nat.lt_or_ge s.srcLen.toNat (s.opc.toNat + 5) with hshort | hfit
  · rw [State.recordStep_of_lt hshort, State.raise_of_run hst (by decide)] at h
    cases h
    exact .shortReadOam hst hshort rfl
  · rw [State.recordStep_of_le hfit] at h
    have hm := tilesMissingAt_of_exec_fault h hst ht
    rw [exec_decodeRecord_of_tilesMissingAt hst hm] at h
    cases h
    exact .tileRange hst hfit hm rfl

theorem State.unitStep_fault (hst : s.st ≠ .fault) (h : s.unitStep = .next t)
    (ht : t.st = .fault) : UnitFault s t := by
  unfold State.unitStep at h
  split at h
  case h_1 => cases h; exact absurd ht hst
  case h_2 hload => cases h; exact State.tileStep_fault hload ht
  case h_3 hrun => exact State.recordStep_fault hrun h ht
  case h_4 hfault => exact absurd hfault hst

/-- The rows that a move of the host raises, with their conditions. -/
inductive MoveFault (m : Move) (s t : State) : Prop where
  | tileCap (hm : m = .writeReg 0 1#32) (hst : s.st = .idle) (hcap : s.tileCap < s.tileCount)
      (h : t = Certificates.faulted { s with nt := 0#32, tiles := [] } .tileCap .tload s.tsrc)
  | illegalCmd (c : Word) (hm : m = .writeReg 0 c) (h1 : c ≠ 1#32) (h2 : c ≠ 2#32)
      (hst : s.st = .idle) (h : t = Certificates.faulted s .illegalCmd .dispatch 0#32)

theorem State.tloadAccepted_of_fault (ht : s.tloadAccepted.st = .fault) :
    s.tileCap < s.tileCount := by
  by_contra hcap
  rw [State.tloadAccepted_of_le (not_lt.1 hcap)] at ht
  cases ht

/-- Every move but the two rows' leaves STATE as it is, or makes it RUN or IDLE. -/
theorem MoveEffect.fault {m : Move} (h : MoveEffect m s t) (hst : s.st ≠ .fault)
    (ht : t.st = .fault) : MoveFault m s t := by
  cases h with
  | tload hm hidle h =>
    subst h
    have hcap := State.tloadAccepted_of_fault ht
    exact .tileCap hm hidle hcap
      ((State.tloadAccepted_of_lt hcap).trans (State.raise_of_tileCap _ _))
  | illegalCmd c hm h1 h2 hidle h =>
    exact .illegalCmd c hm h1 h2 hidle (h.trans (State.raise_of_idle hidle (by decide) _))
  | read _ r h | ignored n v _ h | writeTsrc v _ _ h | writeTlen v _ _ h | writeOsrc v _ _ h
  | changeSrc a bytes _ _ _ h => subst h; exact absurd ht hst
  | run _ _ h | reset _ h => subst h; cases ht

/-- A step that enters FAULT does so by a row of the unit or by one of the host's, in the state without
the turn it takes. -/
theorem step_fault (hst : s.st ≠ .fault) (h : step s = .next t) (ht : t.st = .fault) :
    (∃ sc, UnitFault { s with script := sc } t) ∨
    (∃ m rest, s.script = .move m :: rest ∧ MoveFault m { s with script := rest } t) := by
  have hunit {sc : List Turn} (h : { s with script := sc }.unitStep = .next t) :
      ∃ sc, UnitFault { s with script := sc } t := ⟨sc, State.unitStep_fault hst h ht⟩
  unfold step State.takeTurn at h
  split at h
  case h_1 => exact .inl (hunit (sc := s.script) h)
  case h_2 => exact .inl (hunit h)
  case h_3 =>
    split at h
    · exact .inl (hunit (sc := s.script) h)
    · cases h; exact absurd ht hst
  case h_4 m rest hs => exact .inr ⟨m, rest, hs, (State.hostMove_effect m h).fault hst ht⟩

/-! ## What the invariant adds to the first row -/

/-- While TLOAD is busy the number of tiles loaded is at most that of the region (R65). -/
theorem State.TilesSound.nt_lt_tileCount (h : s.TilesSound) (hst : s.st = .tload)
    (hmore : s.nt.toNat ≠ s.tileCount) : s.nt.toNat < s.tileCount := by
  obtain ⟨-, -, hload⟩ := h
  exact lt_of_le_of_ne (hload hst).1 hmore

/-- The address of the next tile fits FADDR. -/
theorem State.TilesSound.toNat_ofNat_tileAddress (h : s.TilesSound) (hst : s.st = .tload) :
    (BitVec.ofNat 32 s.tileAddress).toNat = s.tileAddress := by
  rw [BitVec.toNat_ofNat, Nat.mod_eq_of_lt]
  exact (h.tileAddress_le hst).trans_lt (max_lt s.tsrc.isLt s.srcLen.isLt)

end Machine

namespace Certificates

open Machine

/-- Settles O48: the rows are the ways a step can enter FAULT, and each row's condition picks its branch
of the step. -/
theorem everyFaultIsARowOfTheTable : Obligations.EveryFaultIsARowOfTheTable := by
  refine ⟨fun s t hsound hst hstep ht => ?_, fun s hst hscript hshort hmore => ?_,
    fun s ⟨hst, hscript⟩ hshort => ?_, fun s ⟨hst, hscript⟩ hfit hm => ?_, fun s hst hcap => ?_,
    fun s v rest hst h1 h2 hs => ?_, rfl⟩
  · obtain ⟨sc, hrow⟩ | ⟨m, rest, hs, hrow⟩ := step_fault hst hstep ht
    · cases hrow with
      | shortReadTile hload hmore hshort h =>
        subst h
        exact .inl ⟨rfl, rfl, hload, hshort, hsound.nt_lt_tileCount hload hmore,
          hsound.toNat_ofNat_tileAddress hload⟩
      | shortReadOam hrun hshort h =>
        subst h
        exact .inr (.inl ⟨rfl, rfl, hrun, hshort, rfl⟩)
      | tileRange hrun hfit hm h =>
        subst h
        exact .inr (.inr (.inl ⟨rfl, rfl, hrun, rfl, hfit, hm⟩))
    · cases hrow with
      | tileCap hm hidle hcap h =>
        subst h hm
        exact .inr (.inr (.inr (.inl ⟨rfl, rfl, hidle, hcap, rfl, by rw [hs]; rfl⟩)))
      | illegalCmd c hm h1 h2 hidle h =>
        subst h hm
        exact .inr (.inr (.inr (.inr ⟨rfl, rfl, hidle, rfl, c, by rw [hs]; rfl, h1, h2⟩)))
  · rw [step_of_tload hscript hst, State.tileStep_of_lt (ne_of_lt hmore) hshort,
      State.raise_of_tload hst]
    rfl
  · rw [step_of_run hscript hst, State.recordStep_of_lt hshort, State.raise_of_run hst (by decide)]
  · rw [step_of_run hscript hst, State.recordStep_of_le hfit,
      exec_decodeRecord_of_tilesMissingAt hst hm]
  · rw [exec_tload, State.command_of_idle hst, State.tloadAccepted_of_lt hcap,
      State.raise_of_tileCap]
    exact ⟨_, rfl, rfl, rfl, rfl, rfl⟩
  · rw [step_of_move hs, State.hostMove]
    exact State.hostWriteReg_cmd_illegal h1 h2 hst

/-- Settles O46: of the effects of a step FAULT leaves the waits, the reads, the ignored writes and the
change of SRC; reset gives the values of the reset state. -/
theorem faultIsLeftOnlyByReset : Obligations.FaultIsLeftOnlyByReset := by
  refine ⟨fun s t hst hreset hstep => ?_, fun s rest hst hs => ?_⟩
  · obtain ⟨sc, -, hunit⟩ | ⟨rest, -, -, rfl⟩ | ⟨m, rest, hs, hmove⟩ := step_effect hstep
    · rw [hunit.eq_of_fault hst]
    · rfl
    · have hm : m ≠ .reset := fun hm => hreset (by rw [hs, hm]; rfl)
      rw [hmove.frame_of_fault hst hm]
  · exact ⟨_, step_of_move hs, rfl, rfl, rfl, rfl, rfl, rfl, fun _ _ => rfl⟩

/-- Settles O47: the fault entry and its operation, written out. -/
theorem faultEntry : Obligations.FaultEntry := fun _ _ _ => rfl

end Certificates
end Sys2Proof
end

section
/-! Reset and the parameters of an instance (70_reset_and_hazards.md R126, R127, R128): a reset is
answered in every state, and no step writes SRC_LEN or TILE_CAP, nor SRC but at the host's request. -/

namespace Sys2Proof
namespace Machine

variable {s t : State}

/-! ## Who keeps SRC, SRC_LEN and TILE_CAP (R128) -/

/-- Both answers of TLOAD's acceptance write registers and the tile store alone (R64). -/
theorem State.tloadAccepted_parameters (s : State) :
    s.tloadAccepted.srcLen = s.srcLen ∧ s.tloadAccepted.tileCap = s.tileCap ∧
      s.tloadAccepted.src = s.src := by
  rcases Nat.lt_or_ge s.tileCap s.tileCount with hcap | hcap
  · rw [State.tloadAccepted_of_lt hcap]
    exact ⟨rfl, rfl, rfl⟩
  · rw [State.tloadAccepted_of_le hcap]
    exact ⟨rfl, rfl, rfl⟩

/-- The unit reads SRC and never writes it (R43). -/
theorem UnitEffect.keeps_parameters (h : UnitEffect s t) :
    t.srcLen = s.srcLen ∧ t.tileCap = s.tileCap ∧ t.src = s.src := by
  cases h with
  | wait _ h | loadDone _ _ h | loadTile _ _ _ h | loadShort _ _ _ h | recordShort _ _ h
  | endList _ _ h | tileRange _ _ _ _ _ _ h | draw _ _ _ _ _ _ _ _ h =>
    subst h
    exact ⟨rfl, rfl, rfl⟩

/-- Of the host's moves one writes SRC, and none the parameters. -/
theorem MoveEffect.keeps_parameters {m : Move} (h : MoveEffect m s t) :
    t.srcLen = s.srcLen ∧ t.tileCap = s.tileCap ∧
      ((∀ a bytes, m ≠ .changeSrc a bytes) → t.src = s.src) := by
  cases h with
  | changeSrc a bytes hm _ _ h =>
    subst h
    exact ⟨rfl, rfl, fun hother => absurd hm (hother a bytes)⟩
  | tload _ _ h =>
    subst h
    obtain ⟨hlen, hcap, hsrc⟩ := s.tloadAccepted_parameters
    exact ⟨hlen, hcap, fun _ => hsrc⟩
  | read _ _ h | ignored _ _ _ h | writeTsrc _ _ _ h | writeTlen _ _ _ h | writeOsrc _ _ _ h
  | run _ _ h | illegalCmd _ _ _ _ _ h | reset _ h =>
    subst h
    exact ⟨rfl, rfl, fun _ => rfl⟩

end Machine

namespace Certificates

open Machine

/-- Settles O52: neither an effect of the unit nor one of a move writes the parameters, and of the moves
the change of SRC alone writes SRC. -/
theorem parametersAreFixed : Obligations.ParametersAreFixed := by
  intro s t hstep
  obtain ⟨sc, -, hunit⟩ | ⟨rest, -, -, rfl⟩ | ⟨m, rest, hs, hmove⟩ := step_effect hstep
  · obtain ⟨hlen, hcap, hsrc⟩ := hunit.keeps_parameters
    exact ⟨hlen, hcap, fun _ => hsrc⟩
  · exact ⟨rfl, rfl, fun _ => rfl⟩
  · obtain ⟨hlen, hcap, hsrc⟩ := hmove.keeps_parameters
    exact ⟨hlen, hcap, fun hother => hsrc fun a bytes hm => hother a bytes (by rw [hs, hm]; rfl)⟩

/-- Settles O51: a move of the host's is answered whatever STATE is, with the rest of the script left,
and the IDLE that a reset leaves waits for the host. -/
theorem resetInAnyState : Obligations.ResetInAnyState :=
  ⟨fun _ _ hs => step_of_move hs, fun s hscript => step_of_waiting hscript (.inl s.resetUnit_st)⟩

end Certificates
end Sys2Proof
end

section
/-! The encoder and the assembler against the decoder (30_encoding.md R45, R51 to R56, R58): the fields
read back from the bytes they are written to, and the form of a pair of nibbles. -/

namespace Sys2Proof

/-! ## The bytes of an encoded OBJ, read back -/

@[simp] theorem lowNibble_nibblePair (hi lo : Nibble) : lowNibble (nibblePair hi lo) = lo := by
  revert hi lo; decide

@[simp] theorem highNibble_nibblePair (hi lo : Nibble) : highNibble (nibblePair hi lo) = hi := by
  revert hi lo; decide

@[simp] theorem nibblePair_highNibble_lowNibble (b : Byte) :
    nibblePair (highNibble b) (lowNibble b) = b := by
  revert b; decide

@[simp] theorem lowNibble_flipSizeByte (hf vf : Bool) (sz : Nibble) :
    lowNibble (flipSizeByte hf vf sz) = sz := by
  revert hf vf sz; decide

@[simp] theorem flipSizeByte_bit_six (hf vf : Bool) (sz : Nibble) : (flipSizeByte hf vf sz)[6] = hf := by
  revert hf vf sz; decide

@[simp] theorem flipSizeByte_bit_seven (hf vf : Bool) (sz : Nibble) :
    (flipSizeByte hf vf sz)[7] = vf := by
  revert hf vf sz; decide

/-- Byte 3 rebuilt from its fields has lost the ignored bits alone (R48). -/
theorem flipSizeByte_of_fields (b : Byte) : flipSizeByte b[6] b[7] (lowNibble b) = b &&& 0xCF#8 := by
  revert b; decide

theorem objFields_encodeObj (o : ObjFields) (sz sh : Nibble) : objFields (encodeObj o sz sh) = o := by
  simp [objFields, encodeObj]

theorem sizeClass_encodeObj (o : ObjFields) (sz sh : Nibble) : sizeClass (encodeObj o sz sh) = sz := by
  simp [sizeClass, encodeObj]

theorem shapeModifier_encodeObj (o : ObjFields) (sz sh : Nibble) :
    shapeModifier (encodeObj o sz sh) = sh := by
  simp [shapeModifier, encodeObj]

/-- The bytes of a record rebuilt from its fields (R48, R58). -/
theorem encodeObj_of_fields (r : Record) :
    encodeObj (objFields r) (sizeClass r) (shapeModifier r) =
      #v[r[0], r[1], r[2], r[3] &&& 0xCF#8, r[4]] := by
  simp [encodeObj, objFields, sizeClass, shapeModifier, flipSizeByte_of_fields]

theorem decodeRecord_encodeObj {o : ObjFields} (ho : o.WellFormed) (sz sh : Nibble) :
    decodeRecord (encodeObj o sz sh) = objForm o sz sh := by
  rw [decodeRecord, byte0_encodeObj, if_neg ho, objFields_encodeObj, sizeClass_encodeObj,
    shapeModifier_encodeObj]

/-! ## The form of a pair of nibbles (R51, R52) -/

/-- The keys of the shape table, one by one. -/
theorem isShapeKey_cases {sz sh : Nibble} (h : isShapeKey sz sh) :
    (sz = 0#4 ∨ sz = 1#4 ∨ sz = 2#4 ∨ sz = 3#4) ∧ (sh = 0#4 ∨ sh = 1#4 ∨ sh = 2#4) := by
  revert sz sh; decide

theorem objForm_of_not_key {sz sh : Nibble} (h : ¬ isShapeKey sz sh) (o : ObjFields) :
    objForm o sz sh = .objNull o sz sh := by
  unfold objForm
  split
  case h_13 => rfl
  all_goals exact absurd ⟨by omega, by omega⟩ h

/-- The form of a pair is written with that pair, so the 12 forms and OBJ.NULL encode alike. -/
theorem encode_objForm (o : ObjFields) (sz sh : Nibble) :
    encode (objForm o sz sh) = .oam5 (encodeObj o sz sh) := by
  by_cases hkey : isShapeKey sz sh
  · obtain ⟨rfl | rfl | rfl | rfl, rfl | rfl | rfl⟩ := isShapeKey_cases hkey <;> rfl
  · rw [objForm_of_not_key hkey, encode]

theorem objForm_wellFormed {o : ObjFields} (ho : o.WellFormed) (sz sh : Nibble) :
    (objForm o sz sh).WellFormed := by
  by_cases hkey : isShapeKey sz sh
  · obtain ⟨rfl | rfl | rfl | rfl, rfl | rfl | rfl⟩ := isShapeKey_cases hkey <;>
    exact decide_eq_true ho
  · rw [objForm_of_not_key hkey]
    exact decide_eq_true ⟨ho, hkey⟩

theorem decode_encode (i : Instr) (hi : i.WellFormed) : decode (encode i) = .ok i := by
  have hform {o : ObjFields} (ho : o.WellFormed) (sz sh : Nibble) :
      decode (.oam5 (encodeObj o sz sh)) = .ok (objForm o sz sh) :=
    congrArg Except.ok (decodeRecord_encodeObj ho sz sh)
  cases i with
  | endList | tload | run => rfl
  | objSq0 o | objSq1 o | objSq2 o | objSq3 o | objWd0 o | objWd1 o | objWd2 o | objWd3 o
  | objTl0 o | objTl1 o | objTl2 o | objTl3 o => exact hform (of_decide_eq_true hi) _ _
  | objNull o sz sh =>
    obtain ⟨ho, hmiss⟩ := of_decide_eq_true hi
    exact (hform ho sz sh).trans (congrArg Except.ok (objForm_of_not_key hmiss o))

/-! ## What the decoder answers -/

theorem decodeRecord_wellFormed (r : Record) : (decodeRecord r).WellFormed := by
  unfold decodeRecord
  split
  case isTrue => rfl
  case isFalse hne => exact objForm_wellFormed hne _ _

theorem decodeCommand_eq_ok {c : Word} {i : Instr} (h : decodeCommand c = .ok i) :
    c = 1#32 ∧ i = .tload ∨ c = 2#32 ∧ i = .run := by
  unfold decodeCommand at h
  split at h
  · cases h; exact .inl ⟨‹_›, rfl⟩
  · split at h
    · cases h; exact .inr ⟨‹_›, rfl⟩
    · cases h

theorem decode_wellFormed {e : Encoding} {i : Instr} (h : decode e = .ok i) : i.WellFormed := by
  cases e with
  | oam5 r => cases h; exact decodeRecord_wellFormed r
  | cmd c => obtain ⟨-, rfl⟩ | ⟨-, rfl⟩ := decodeCommand_eq_ok h <;> rfl

/-! ## The assembler (R58) -/

/-- Operands in range assemble to the encoder's record of the words they fit. -/
theorem assembleObj_of_inRange {ti : Nat} {x y : Int} {sz sh pb : Nat} (h v : Bool)
    (hrange : objOperandsInRange ti x y sz sh pb) :
    assembleObj ti x y sz sh pb h v =
      some (encodeObj ⟨BitVec.ofNat 8 ti, BitVec.ofInt 8 x, BitVec.ofInt 8 y, h, v, BitVec.ofNat 4 pb⟩
        (BitVec.ofNat 4 sz) (BitVec.ofNat 4 sh)) := by
  obtain ⟨-, -, -, hsz, hsh, hpb⟩ := id hrange
  have hbyte4 : BitVec.ofNat 8 (pb * 16 + sh) = nibblePair (BitVec.ofNat 4 pb) (BitVec.ofNat 4 sh) := by
    rw [← BitVec.toNat_inj, nibblePair, toNat_append_eq_add]
    simp only [BitVec.toNat_ofNat]
    omega
  simp only [assembleObj, if_pos hrange, ofNat_flipSize h v hsz, hbyte4, encodeObj]

/-- The disassembler prints an encoded OBJ with the operands it was written with (R58). -/
theorem disassemble_encodeObj {o : ObjFields} (ho : o.WellFormed) (sz sh : Nibble) :
    disassemble (encodeObj o sz sh) =
      (.obj o.ti.toNat (sext8 o.x) (sext8 o.y) sz.toNat sh.toNat o.pb.toNat o.hf o.vf, 0#2) := by
  rw [disassemble, byte0_encodeObj, if_neg ho, objFields_encodeObj, sizeClass_encodeObj,
    shapeModifier_encodeObj, ignoredBits_encodeObj]

theorem sext8_ofInt {x : Int} (h : -128 ≤ x ∧ x ≤ 127) : sext8 (BitVec.ofInt 8 x) = x := by
  rw [sext8, BitVec.toInt_ofInt, Int.bmod_def]
  omega

namespace Certificates

open Machine

/-- Settles O1, by evaluation of the decoder on the words. -/
theorem tableWordsDecode : Obligations.TableWordsDecode := by
  unfold Obligations.TableWordsDecode
  decide

/-- Settles O2: the fields are read back from the bytes they are written to, and a pair of nibbles is
written by the form it decodes to. -/
theorem decodeOfEncodeIsIdentity : Obligations.DecodeOfEncodeIsIdentity := decode_encode

/-- Settles O3: byte 0 is 0xFF for END alone, and a key of the table never decodes to OBJ.NULL. -/
theorem decodedInstructionIsWellFormed : Obligations.DecodedInstructionIsWellFormed :=
  fun _ _ => decode_wellFormed

/-- Settles O4: the encoder rebuilds each byte from the fields read of it, byte 3 without its ignored
bits. -/
theorem encodeOfDecodeClearsIgnoredBits : Obligations.EncodeOfDecodeClearsIgnoredBits := by
  intro r hne
  rw [decodeRecord, if_neg hne, encode_objForm, encodeObj_of_fields]

/-- Settles O9: operands in range fit their words, so reading them back is the identity. -/
theorem assembleThenDisassemble : Obligations.AssembleThenDisassemble := by
  refine ⟨fun ti x y sz sh pb h v hrange => ?_, fun _ _ _ _ _ _ _ _ hrange => if_neg hrange⟩
  obtain ⟨hti, hx, hy, hsz, hsh, hpb⟩ := id hrange
  have hend : BitVec.ofNat 8 ti ≠ 0xFF#8 := by
    rw [ne_eq, ← BitVec.toNat_inj, BitVec.toNat_ofNat, BitVec.toNat_ofNat]
    omega
  refine ⟨_, assembleObj_of_inRange h v hrange, (disassemble_encodeObj hend _ _).trans ?_⟩
  simp only [BitVec.toNat_ofNat, sext8_ofInt hx, sext8_ofInt hy]
  rw [Nat.mod_eq_of_lt (by omega : ti < 2 ^ 8), Nat.mod_eq_of_lt (by omega : sz < 2 ^ 4),
    Nat.mod_eq_of_lt (by omega : sh < 2 ^ 4), Nat.mod_eq_of_lt (by omega : pb < 2 ^ 4)]

end Certificates
end Sys2Proof
end

section
/-! Drawing in closed form (42_sprite_compositor.md R83, R84, R91, R92, R94, R99, R100; 70_reset_and_hazards.md
R135): an object's own value at a cell, the canvas after one object and after two, and the step of RUN on an
OBJ record. -/

namespace Sys2Proof
namespace Machine

open Certificates

variable {s t : State} {o q : ObjFields} {wt ht wt' ht' r c : Nat}

/-! ## The place of a pixel (R83, R84) -/

theorem canvasRow_eq (o : ObjFields) (sy : Nat) :
    (canvasRow o sy : Int) = 256 + signedByte o.y + sy := by
  have := sext8_bounds o.y
  rw [canvasRow, Config.originY, ← sext8_eq_signedByte]
  omega

theorem canvasColumn_eq (o : ObjFields) (sx : Nat) :
    (canvasColumn o sx : Int) = 256 + signedByte o.x + sx := by
  have := sext8_bounds o.x
  rw [canvasColumn, Config.originX, ← sext8_eq_signedByte]
  omega

/-- An object of at most 64 rows and columns lies within 128 to 446 (R84). -/
theorem canvasRow_canvasColumn_bounds (o : ObjFields) {sx sy : Nat} (hx : sx < 64) (hy : sy < 64) :
    128 ≤ canvasRow o sy ∧ canvasRow o sy ≤ 446 ∧
      128 ≤ canvasColumn o sx ∧ canvasColumn o sx ≤ 446 := by
  have hrow := canvasRow_spec o sy
  have hcol := canvasColumn_spec o sx
  omega

/-- Keys of cells with columns inside the canvas name row and column. -/
theorem canvasKey_inj {r c r' c' : Nat} (hc : c < 512) (hc' : c' < 512) :
    canvasKey r c = canvasKey r' c' ↔ r = r' ∧ c = c' := by
  unfold canvasKey Config.canvasWidth
  omega

/-- A canvas in canonical form is the same as its cells. -/
theorem State.canvas_ext (hs : Memory.wf s.canvas) (ht : Memory.wf t.canvas)
    (h : ∀ r c, c < 512 → s.canvasCell r c = t.canvasCell r c) : s.canvas = t.canvas := by
  refine Mem.ext_of_wf hs ht fun a => ?_
  have hkey : canvasKey (a / 512) (a % 512) = a := Nat.div_add_mod a 512
  have hcell := h (a / 512) (a % 512) (Nat.mod_lt _ (by decide))
  rwa [State.canvasCell, State.canvasCell, hkey] at hcell

/-! ## Mirrors (R91, R92) -/

theorem mirror_lt {n i : Nat} (f : Bool) (h : i < n) : mirror f n i < n := by
  unfold mirror
  split <;> omega

theorem mirror_mirror {n i : Nat} (f : Bool) (h : i < n) : mirror f n (mirror f n i) = i := by
  unfold mirror
  split <;> omega

/-- The mirror as the closed form of R99 computes it, on integers. -/
theorem mirror_eq_toNat {n i : Nat} (f : Bool) (h : i < n) :
    (if f then (n : Int) - 1 - i else i).toNat = mirror f n i := by
  unfold mirror
  split <;> omega

/-- A mirror rearranges the indices below `n`, since it is its own inverse there. -/
theorem perm_map_mirror_range (f : Bool) (n : Nat) :
    ((List.range n).map (mirror f n)).Perm (List.range n) := by
  refine (List.perm_ext_iff_of_nodup (List.nodup_range.map_on fun i hi j hj hij => ?_)
    List.nodup_range).2 fun i => ?_
  · rw [← mirror_mirror f (List.mem_range.1 hi), hij, mirror_mirror f (List.mem_range.1 hj)]
  · simp only [List.mem_map, List.mem_range]
    constructor
    · rintro ⟨j, hj, rfl⟩
      exact mirror_lt f hj
    · exact fun hi => ⟨mirror f n i, mirror_lt f hi, mirror_mirror f hi⟩

/-- The flipped object is the object with its rows and its columns rearranged. -/
theorem State.perm_flippedPixel_subPixel (s : State) (o : ObjFields) (wt ht : Nat) :
    ((List.range (8 * ht)).flatMap fun sy => (List.range (8 * wt)).map fun sx =>
      s.flippedPixel o wt ht sx sy).Perm
    ((List.range (8 * ht)).flatMap fun sy => (List.range (8 * wt)).map fun sx =>
      s.subPixel o wt sx sy) := by
  have hrow (sy : Nat) : ((List.range (8 * wt)).map fun sx => s.flippedPixel o wt ht sx sy) =
      ((List.range (8 * wt)).map (mirror o.hf (8 * wt))).map
        fun sx => s.subPixel o wt sx (mirror o.vf (8 * ht) sy) := by
    rw [List.map_map]
    rfl
  simp only [hrow]
  rw [← List.flatMap_map (mirror o.vf (8 * ht)) fun sy =>
    ((List.range (8 * wt)).map (mirror o.hf (8 * wt))).map fun sx => s.subPixel o wt sx sy]
  exact (perm_map_mirror_range o.vf (8 * ht)).flatMap fun sy _ =>
    (perm_map_mirror_range o.hf (8 * wt)).map _

/-! ## The object's own value at a cell (R88, R99) -/

theorem nibble_toNat_eq_zero {p : Nibble} : p.toNat = 0 ↔ p = 0#4 :=
  BitVec.toNat_inj (y := 0#4)

theorem bias_eq_zero_iff {p pb : Nibble} : bias p pb = 0#8 ↔ p = 0#4 := by
  refine ⟨fun h => ?_, fun h => by rw [h, bias_zero]⟩
  by_contra hp
  have hsum := bias_toNat hp pb
  rw [h, BitVec.toNat_zero] at hsum
  exact hp (nibble_toNat_eq_zero.1 (by omega))

theorem bias_eq_ofNat {p : Nibble} (hp : p ≠ 0#4) (pb : Nibble) :
    bias p pb = BitVec.ofNat 8 (p.toNat + 16 * pb.toNat) := by
  rw [← bias_toNat hp, BitVec.ofNat_toNat, BitVec.setWidth_eq]

/-- A value an object draws is never slot 0 of a bank (R19). -/
theorem bias_toNat_mod_ne_zero {p : Nibble} (hp : p ≠ 0#4) (pb : Nibble) :
    (bias p pb).toNat % 16 ≠ 0 := by
  have hdigit := p.isLt
  have hpos : p.toNat ≠ 0 := mt nibble_toNat_eq_zero.1 hp
  rw [bias_toNat hp]
  omega

/-- The object's value at a cell of the canvas, 0 where it has no pixel or a transparent one. -/
def State.objectCell (s : State) (o : ObjFields) (wt ht r c : Nat) : Byte :=
  cellAfterDraw { s with canvas := [] } o wt ht r c

/-- No pixel of the object lies on the cell. -/
def offObject (o : ObjFields) (wt ht r c : Nat) : Prop :=
  ∀ sy < 8 * ht, ∀ sx < 8 * wt, ¬ (r = canvasRow o sy ∧ c = canvasColumn o sx)

/-- A cell is that of a pixel of the object, or off the object. -/
theorem exists_pixel_or_offObject (o : ObjFields) (wt ht r c : Nat) :
    (∃ sy < 8 * ht, ∃ sx < 8 * wt, r = canvasRow o sy ∧ c = canvasColumn o sx) ∨
      offObject o wt ht r c := by
  rw [or_iff_not_imp_left]
  exact fun h sy hy sx hx hcell => h ⟨sy, hy, sx, hx, hcell⟩

theorem cellAfterDraw_of_pixel (s : State) {sy sx : Nat} (hy : sy < 8 * ht) (hx : sx < 8 * wt) :
    cellAfterDraw s o wt ht (canvasRow o sy) (canvasColumn o sx) =
      if s.flippedPixel o wt ht sx sy = 0#8 then s.canvasCell (canvasRow o sy) (canvasColumn o sx)
      else s.flippedPixel o wt ht sx sy := by
  have hrow : (canvasRow o sy : Int) - 256 - signedByte o.y = sy := by
    rw [canvasRow_eq]; omega
  have hcol : (canvasColumn o sx : Int) - 256 - signedByte o.x = sx := by
    rw [canvasColumn_eq]; omega
  have hux := mirror_eq_toNat o.hf hx
  have huy := mirror_eq_toNat o.vf hy
  push_cast at hux huy
  simp only [cellAfterDraw, hrow, hcol, hux, huy, State.flippedPixel, State.subPixel, tileSlot, pixelIndex,
    bias_eq_zero_iff, nibble_toNat_eq_zero]
  rw [if_pos (by omega)]
  split
  case isTrue => rfl
  case isFalse hp => rw [bias_eq_ofNat hp]

theorem cellAfterDraw_of_offObject (s : State) (h : offObject o wt ht r c) :
    cellAfterDraw s o wt ht r c = s.canvasCell r c := by
  refine if_neg fun ⟨hx0, hx, hy0, hy⟩ => ?_
  refine h ((r : Int) - 256 - signedByte o.y).toNat (by omega)
    ((c : Int) - 256 - signedByte o.x).toNat (by omega) ⟨?_, ?_⟩
  · have := canvasRow_eq o ((r : Int) - 256 - signedByte o.y).toNat
    omega
  · have := canvasColumn_eq o ((c : Int) - 256 - signedByte o.x).toNat
    omega

theorem State.objectCell_of_pixel (s : State) {sy sx : Nat} (hy : sy < 8 * ht) (hx : sx < 8 * wt) :
    s.objectCell o wt ht (canvasRow o sy) (canvasColumn o sx) = s.flippedPixel o wt ht sx sy := by
  rw [State.objectCell, cellAfterDraw_of_pixel _ hy hx]
  split
  case isTrue hzero => exact hzero.symm
  case isFalse => rfl

theorem State.objectCell_of_offObject (s : State) (h : offObject o wt ht r c) :
    s.objectCell o wt ht r c = 0#8 := cellAfterDraw_of_offObject _ h

/-- The object's own value depends on the tile store alone. -/
theorem State.objectCell_drawn (s : State) (o q : ObjFields) (wt ht wt' ht' r c : Nat) :
    (s.drawn o wt ht).objectCell q wt' ht' r c = s.objectCell q wt' ht' r c := rfl

/-- The closed form of R99: the object's own value where it is not transparent, else what was there. -/
theorem cellAfterDraw_eq_objectCell (s : State) (o : ObjFields) (wt ht r c : Nat) :
    cellAfterDraw s o wt ht r c =
      if s.objectCell o wt ht r c = 0#8 then s.canvasCell r c else s.objectCell o wt ht r c := by
  obtain ⟨sy, hy, sx, hx, rfl, rfl⟩ | hoff := exists_pixel_or_offObject o wt ht r c
  · rw [cellAfterDraw_of_pixel s hy hx, s.objectCell_of_pixel hy hx]
  · rw [cellAfterDraw_of_offObject s hoff, if_pos (s.objectCell_of_offObject hoff)]

/-! ## The canvas after drawing (R94, R99, R100) -/

/-- Drawing does what the closed form says. -/
theorem State.canvasCell_drawn (hw : wt ≤ 8) (hwf : Memory.wf s.canvas) (hc : c < 512) :
    (s.drawn o wt ht).canvasCell r c = cellAfterDraw s o wt ht r c := by
  obtain ⟨sy, hy, sx, hx, rfl, rfl⟩ | hoff := exists_pixel_or_offObject o wt ht r c
  · rw [cellAfterDraw_of_pixel s hy hx]
    exact s.read_composited_inside o wt ht hw hwf hy hx
  · rw [cellAfterDraw_of_offObject s hoff]
    refine s.read_composited_outside o wt ht hw hwf fun sy hy sx hx hkey => hoff sy hy sx hx ?_
    have hcol := canvasColumn_spec o sx
    exact (canvasKey_inj hc (by omega)).1 hkey

/-- The same, with the object's own value. -/
theorem State.canvasCell_drawn_eq_objectCell (hw : wt ≤ 8) (hwf : Memory.wf s.canvas) (hc : c < 512) :
    (s.drawn o wt ht).canvasCell r c =
      if s.objectCell o wt ht r c = 0#8 then s.canvasCell r c else s.objectCell o wt ht r c := by
  rw [State.canvasCell_drawn hw hwf hc, cellAfterDraw_eq_objectCell]

theorem State.wf_drawn (hw : wt ≤ 8) (hwf : Memory.wf s.canvas) :
    Memory.wf (s.drawn o wt ht).canvas := s.wf_composited o wt ht hw hwf

/-- The canvas after two objects: the second over the first over what was there (R94). -/
theorem State.canvasCell_drawn_drawn (hw : wt ≤ 8) (hw' : wt' ≤ 8) (hwf : Memory.wf s.canvas)
    (hc : c < 512) :
    ((s.drawn o wt ht).drawn q wt' ht').canvasCell r c =
      if s.objectCell q wt' ht' r c = 0#8 then (s.drawn o wt ht).canvasCell r c
      else s.objectCell q wt' ht' r c := by
  rw [State.canvasCell_drawn_eq_objectCell hw' (State.wf_drawn hw hwf) hc, State.objectCell_drawn]

/-- The result of a drawn object, as the statements write it: frame, canonical form and cells. -/
theorem State.drawn_result (hw : wt ≤ 8) (hwf : Memory.wf s.canvas) :
    ∃ t, Host.Outcome.next (φ := Fault) (ρ := Refusal) (s.drawn o wt ht) = .next t ∧
      t = { s with canvas := t.canvas, opc := s.opc + 5#32, nent := s.nent + 1#32 } ∧
      Memory.wf t.canvas ∧
      ∀ r c, c < 512 → t.canvasCell r c = cellAfterDraw s o wt ht r c :=
  ⟨_, rfl, rfl, State.wf_drawn hw hwf, fun _ _ => State.canvasCell_drawn hw hwf⟩

/-- A record that is an OBJ with its tiles loaded is drawn (R96). -/
theorem exec_decodeRecord_of_not_missing {r : Record} (hst : s.st = .run) (hne : r[0] ≠ 0xFF#8)
    (hm : ¬ s.tilesMissing (objFields r) (recordShape r).1 (recordShape r).2) :
    exec (decodeRecord r) s = .next (s.drawn (objFields r) (recordShape r).1 (recordShape r).2) :=
  (exec_decodeRecord_of_ne hne s).trans (execObj_of_not_missing hst hm)

/-- Every form of the 12 draws its block (R73 to R75, R96). -/
theorem forAllForms_drawsBlock : ForAllForms DrawsBlock :=
  forAllForms_of_execObj fun i o wt ht _ hw hexec s hst hwf hloaded => by
    rw [hexec, execObj_of_not_missing hst fun ⟨_, hm⟩ => absurd hloaded (by omega)]
    exact State.drawn_result hw hwf

end Machine

namespace Certificates

open Machine

/-- Settles O18: a mirror is its own inverse on the indices of the object, so it rearranges them. -/
theorem flipsPermuteTheObject : Obligations.FlipsPermuteTheObject :=
  ⟨fun _ _ _ _ _ _ => rfl, fun f _ _ hi => ⟨mirror_lt f hi, mirror_mirror f hi⟩,
    State.perm_flippedPixel_subPixel⟩

/-- Settles O19: a signed byte lies between -128 and 127, so neither sum is cut off at 0. -/
theorem objectLiesInsideTheCanvas : Obligations.ObjectLiesInsideTheCanvas :=
  fun o sx sy hx hy => ⟨canvasRow_eq o sy, canvasColumn_eq o sx, canvasRow_canvasColumn_bounds o hx hy⟩

/-- Settles O20, by the drawing of the 12 forms. -/
theorem squareFormsDraw : Obligations.SquareFormsDraw := by
  intro o
  obtain ⟨hsq0, hsq1, hsq2, hsq3, -⟩ := forAllForms_drawsBlock o
  exact ⟨hsq0, hsq1, hsq2, hsq3⟩

/-- Settles O21, by the drawing of the 12 forms. -/
theorem wideFormsDraw : Obligations.WideFormsDraw := by
  intro o
  obtain ⟨-, -, -, -, hwd0, hwd1, hwd2, hwd3, -⟩ := forAllForms_drawsBlock o
  exact ⟨hwd0, hwd1, hwd2, hwd3⟩

/-- Settles O22, by the drawing of the 12 forms. -/
theorem tallFormsDraw : Obligations.TallFormsDraw := by
  intro o
  obtain ⟨-, -, -, -, -, -, -, -, htall⟩ := forAllForms_drawsBlock o
  exact htall

/-- Settles O30: the record's block either reaches beyond NT, or is drawn in closed form. -/
theorem runStepOnAnObject : Obligations.RunStepOnAnObject := by
  rintro s r ⟨hst, hscript⟩ hwf hfit rfl hne
  rw [step_of_run hscript hst, State.recordStep_of_le hfit]
  refine ⟨fun hpos hbeyond => exec_decodeRecord_of_tilesMissingAt hst ⟨hne, hpos, hbeyond⟩,
    fun hloaded => ?_⟩
  rw [exec_decodeRecord_of_not_missing hst hne fun ⟨hpos, hbeyond⟩ =>
    hloaded.elim hpos.ne' (not_le.2 hbeyond)]
  exact State.drawn_result (shapeOf_le _ _).1 hwf

/-- Settles O32: the object's own value depends on the tile store, which the earlier draw keeps. -/
theorem laterObjectDrawsOverEarlier : Obligations.LaterObjectDrawsOverEarlier :=
  fun _ _ _ _ _ _ _ hw _ hw' _ hwf _ _ hc => State.canvasCell_drawn_drawn hw hw' hwf hc

/-- Settles O31: cell by cell, an object over itself shows its own value, or what was there. -/
theorem repeatedDrawIsIdempotent : Obligations.RepeatedDrawIsIdempotent := by
  intro s o wt ht hw _ hwf
  have hwf₁ := State.wf_drawn (o := o) (ht := ht) hw hwf
  refine State.canvas_ext (State.wf_drawn hw hwf₁) hwf₁ fun r c hc => ?_
  rw [State.canvasCell_drawn_drawn hw hw hwf hc, State.canvasCell_drawn_eq_objectCell hw hwf hc]
  split <;> rfl

/-- Settles O33: where one of the two objects is transparent, either order shows the other's value. -/
theorem disjointDrawsCommute : Obligations.DisjointDrawsCommute := by
  intro s o q wt ht wt' ht' hw _ hw' _ hwf hdisjoint
  refine State.canvas_ext (State.wf_drawn hw' (State.wf_drawn hw hwf))
    (State.wf_drawn hw (State.wf_drawn hw' hwf)) fun r c hc => ?_
  rw [State.canvasCell_drawn_drawn hw hw' hwf hc, State.canvasCell_drawn_drawn hw' hw hwf hc,
    State.canvasCell_drawn_eq_objectCell hw hwf hc, State.canvasCell_drawn_eq_objectCell hw' hwf hc]
  have hcell : s.objectCell o wt ht r c = 0#8 ∨ s.objectCell q wt' ht' r c = 0#8 := hdisjoint r c hc
  rcases hcell with ho | hq
  · simp [ho]
  · simp [hq]

end Certificates
end Sys2Proof
end

section
/-! The invariants of the machine (10_state.md R15, R17, R19, R25, R26, R31, R32; 42_sprite_compositor.md
R84): memory form, canvas colours, tile store bounds and cursor, each kept effect by effect; and what the
two commands leave alone while they are busy (40_tile_decode.md R64, R65; 70_reset_and_hazards.md R134). -/

namespace Sys2Proof
namespace Machine

variable {s t : State}

/-- A predicate that does not read the script is kept by every step when every effect of the unit and
of the host's moves keeps it. -/
theorem step_keeps {P : State → Prop}
    (hscript : ∀ s sc, P s → P { s with script := sc })
    (hunit : ∀ s t, UnitEffect s t → P s → P t)
    (hmove : ∀ m s t, MoveEffect m s t → P s → P t)
    (hs : P s) (h : step s = .next t) : P t := by
  obtain ⟨sc, -, heffect⟩ | ⟨rest, -, -, rfl⟩ | ⟨m, rest, -, heffect⟩ := step_effect h
  · exact hunit _ _ heffect (hscript s sc hs)
  · exact hscript s rest hs
  · exact hmove m _ _ heffect (hscript s rest hs)

/-- What both answers of TLOAD's acceptance have in common: the store emptied, nothing else but STATUS
and FADDR written (R64). -/
theorem State.tloadAccepted_frame (s : State) :
    s.tloadAccepted =
      { s with
        nt := 0#32, tiles := [], st := s.tloadAccepted.st, cause := s.tloadAccepted.cause,
        fop := s.tloadAccepted.fop, faddr := s.tloadAccepted.faddr } := by
  rcases Nat.lt_or_ge s.tileCap s.tileCount with hcap | hcap
  · rw [State.tloadAccepted_of_lt hcap]
    rfl
  · rw [State.tloadAccepted_of_le hcap]

/-! ## Memory form (R32) -/

theorem Mem.wf_nil {α : Type} (d : α) : Mem.wf d ([] : Mem α) :=
  ⟨List.Pairwise.nil, fun _ h => nomatch h⟩

/-- The host's change of SRC lies below SRC_LEN (log 10), and so do the keys it adds. -/
theorem State.MemorySound.changeSrc (hs : s.MemorySound) {a : Nat} {bytes : List Byte}
    (hfit : a + bytes.length ≤ s.srcLen.toNat) :
    { s with src := Mem.writeBytes s.src a bytes }.MemorySound := by
  obtain ⟨hsrc, hcanvas, htiles, hbelow⟩ := hs
  refine ⟨Memory.wf_writeBytes hsrc a bytes, hcanvas, htiles, fun c hc => ?_⟩
  rcases Memory.mem_writeBytes hc with hold | ⟨-, hlt⟩
  · exact hbelow c hold
  · exact hlt.trans_le hfit

theorem UnitEffect.keeps_memorySound (h : UnitEffect s t) (hs : s.MemorySound) : t.MemorySound := by
  cases h with
  | wait _ h | loadDone _ _ h | loadShort _ _ _ h | recordShort _ _ h | endList _ _ h
  | tileRange _ _ _ _ _ _ h => subst h; exact hs
  | loadTile _ _ _ h =>
    obtain ⟨hsrc, hcanvas, htiles, hbelow⟩ := hs
    subst h
    exact ⟨hsrc, hcanvas, Mem.wf_write htiles _ _, hbelow⟩
  | draw _ _ o wt ht _ hw _ h =>
    obtain ⟨hsrc, hcanvas, htiles, hbelow⟩ := hs
    subst h
    exact ⟨hsrc, State.wf_drawn hw hcanvas, htiles, hbelow⟩

theorem MoveEffect.keeps_memorySound {m : Move} (h : MoveEffect m s t) (hs : s.MemorySound) :
    t.MemorySound := by
  cases h with
  | read _ _ h | ignored _ _ _ h | writeTsrc _ _ _ h | writeTlen _ _ _ h | writeOsrc _ _ _ h
  | illegalCmd _ _ _ _ _ h => subst h; exact hs
  | changeSrc a bytes _ _ hfit h => subst h; exact hs.changeSrc hfit
  | tload _ _ h =>
    obtain ⟨hsrc, hcanvas, -, hbelow⟩ := hs
    rw [h, s.tloadAccepted_frame]
    exact ⟨hsrc, hcanvas, Mem.wf_nil _, hbelow⟩
  | run _ _ h =>
    obtain ⟨hsrc, -, htiles, hbelow⟩ := hs
    subst h
    exact ⟨hsrc, Mem.wf_nil _, htiles, hbelow⟩
  | reset _ h =>
    obtain ⟨hsrc, -, -, hbelow⟩ := hs
    subst h
    exact ⟨hsrc, Mem.wf_nil _, Mem.wf_nil _, hbelow⟩

/-! ## Canvas colours (R19, R84) -/

/-- A cleared canvas has every cell 0. -/
theorem State.canvasSound_of_cleared (h : s.canvas = []) : s.CanvasSound := by
  refine ⟨h ▸ Mem.wf_nil _, fun r c _ => .inl ?_⟩
  rw [State.canvasCell, h, Mem.read_nil]

/-- The object's own value is transparent, or a colour off slot 0 on a cell within 128 to 446. -/
theorem State.objectCell_sound (s : State) (o : ObjFields) {wt ht : Nat} (hw : wt ≤ 8) (hh : ht ≤ 8)
    (r c : Nat) :
    s.objectCell o wt ht r c = 0#8 ∨
      (s.objectCell o wt ht r c).toNat % 16 ≠ 0 ∧ 128 ≤ r ∧ r ≤ 446 ∧ 128 ≤ c ∧ c ≤ 446 := by
  obtain ⟨sy, hy, sx, hx, rfl, rfl⟩ | hoff := exists_pixel_or_offObject o wt ht r c
  · rw [s.objectCell_of_pixel hy hx, or_iff_not_imp_left]
    exact fun hvisible => ⟨bias_toNat_mod_ne_zero (mt bias_eq_zero_iff.2 hvisible) _,
      canvasRow_canvasColumn_bounds o (by omega) (by omega)⟩
  · exact .inl (s.objectCell_of_offObject hoff)

theorem State.CanvasSound.drawn (hs : s.CanvasSound) (o : ObjFields) {wt ht : Nat} (hw : wt ≤ 8)
    (hh : ht ≤ 8) : (s.drawn o wt ht).CanvasSound := by
  obtain ⟨hwf, hcells⟩ := hs
  refine ⟨State.wf_drawn hw hwf, fun r c hc => ?_⟩
  rw [State.canvasCell_drawn_eq_objectCell hw hwf hc]
  split
  · exact hcells r c hc
  · exact s.objectCell_sound o hw hh r c

theorem UnitEffect.keeps_canvasSound (h : UnitEffect s t) (hs : s.CanvasSound) : t.CanvasSound := by
  cases h with
  | wait _ h | loadDone _ _ h | loadTile _ _ _ h | loadShort _ _ _ h | recordShort _ _ h
  | endList _ _ h | tileRange _ _ _ _ _ _ h => subst h; exact hs
  | draw _ _ o wt ht _ hw hh h => subst h; exact hs.drawn o hw hh

theorem MoveEffect.keeps_canvasSound {m : Move} (h : MoveEffect m s t) (hs : s.CanvasSound) :
    t.CanvasSound := by
  cases h with
  | read _ _ h | ignored _ _ _ h | writeTsrc _ _ _ h | writeTlen _ _ _ h | writeOsrc _ _ _ h
  | illegalCmd _ _ _ _ _ h | changeSrc _ _ _ _ _ h => subst h; exact hs
  | tload _ _ h => rw [h, s.tloadAccepted_frame]; exact hs
  | run _ _ h | reset _ h => subst h; exact State.canvasSound_of_cleared rfl

/-! ## Tile store bounds (R17, R25, R65) -/

/-- Outside TLOAD the invariant speaks of NT, TILE_CAP and the tile list alone. -/
theorem State.TilesSound.of_not_tload (hs : s.TilesSound) (ht : t.st ≠ .tload) (hnt : t.nt = s.nt)
    (hcap : t.tileCap = s.tileCap) (htiles : t.tiles = s.tiles) : t.TilesSound := by
  obtain ⟨hle, hbelow, -⟩ := hs
  refine ⟨?_, ?_, fun h => absurd h ht⟩
  · rwa [hnt, hcap]
  · rwa [hnt, htiles]

theorem State.tilesSound_of_empty (hnt : s.nt = 0#32) (htiles : s.tiles = [])
    (hload : s.st = .tload → s.tileCount ≤ s.tileCap) : s.TilesSound := by
  have hzero : s.nt.toNat = 0 := by rw [hnt]; rfl
  refine ⟨by omega, fun c hc => ?_, fun hst => ⟨by omega, hload hst, fun hpos => by omega⟩⟩
  rw [htiles] at hc
  cases hc

theorem State.tloadAccepted_tilesSound (s : State) : s.tloadAccepted.TilesSound := by
  rcases Nat.lt_or_ge s.tileCap s.tileCount with hcap | hcap
  · rw [State.tloadAccepted_of_lt hcap]
    exact State.tilesSound_of_empty rfl rfl fun hst => nomatch hst
  · rw [State.tloadAccepted_of_le hcap]
    exact State.tilesSound_of_empty rfl rfl fun _ => hcap

/-- A stored tile is counted, and was read from inside SRC. -/
theorem State.TilesSound.storeTile (hs : s.TilesSound) (hst : s.st = .tload)
    (hmore : s.nt.toNat ≠ s.tileCount) (hfit : s.tileAddress + 32 ≤ s.srcLen.toNat) (px : Tile) :
    (s.storeTile px).TilesSound := by
  have hlt := hs.nt_lt_tileCount hst hmore
  obtain ⟨-, hbelow, hload⟩ := hs
  obtain ⟨-, hcap, -⟩ := hload hst
  have hnt : (s.nt + 1#32).toNat = s.nt.toNat + 1 := by
    have := s.tlen.isLt
    unfold State.tileCount at hlt
    rw [BitVec.toNat_add, BitVec.toNat_ofNat]
    omega
  refine ⟨?_, fun c hc => ?_, fun _ => ⟨?_, hcap, fun _ => ?_⟩⟩
  · rw [State.storeTile_nt, State.storeTile_tileCap, hnt]
    omega
  · rw [State.storeTile_nt, hnt]
    rcases Mem.mem_write hc with ⟨rfl, -⟩ | hold
    · exact Nat.lt_succ_self _
    · exact (hbelow c hold).trans (Nat.lt_succ_self _)
  · rw [State.storeTile_nt, hnt]
    exact hlt
  · unfold State.tileAddress at hfit ⊢
    rw [State.storeTile_nt, hnt, State.storeTile_tsrc, State.storeTile_srcLen]
    omega

theorem UnitEffect.keeps_tilesSound (h : UnitEffect s t) (hs : s.TilesSound) : t.TilesSound := by
  cases h with
  | wait _ h => subst h; exact hs
  | loadTile hst hmore hfit h => subst h; exact hs.storeTile hst hmore hfit _
  | loadDone _ _ h | loadShort _ _ _ h | recordShort _ _ h | endList _ _ h
  | tileRange _ _ _ _ _ _ h => subst h; exact hs.of_not_tload (by simp) rfl rfl rfl
  | draw hst _ o wt ht _ _ _ h => subst h; exact hs.of_not_tload (by simp [hst]) rfl rfl rfl

theorem MoveEffect.keeps_tilesSound {m : Move} (h : MoveEffect m s t) (hs : s.TilesSound) :
    t.TilesSound := by
  cases h with
  | read _ _ h | ignored _ _ _ h | changeSrc _ _ _ _ _ h => subst h; exact hs
  | writeTsrc _ _ hst h | writeTlen _ _ hst h | writeOsrc _ _ hst h =>
    subst h; exact hs.of_not_tload (by simp [hst]) rfl rfl rfl
  | tload _ _ h => subst h; exact s.tloadAccepted_tilesSound
  | run _ _ h | illegalCmd _ _ _ _ _ h => subst h; exact hs.of_not_tload (by simp) rfl rfl rfl
  | reset _ h => subst h; exact State.tilesSound_of_empty rfl rfl fun hst => nomatch hst

/-! ## The cursor (R15, R26) -/

/-- Outside RUN the invariant is the bound on NENT alone. -/
theorem State.CursorSound.of_not_run (hs : s.CursorSound) (ht : t.st ≠ .run) (hnent : t.nent = s.nent)
    (hlen : t.srcLen = s.srcLen) : t.CursorSound :=
  ⟨by rw [hnent, hlen]; exact hs.1, fun h => absurd h ht⟩

/-- With no record counted the cursor is at OSRC. -/
theorem State.cursorSound_of_zero (hnent : s.nent = 0#32) (hopc : s.opc = s.osrc) :
    s.CursorSound := by
  have hzero : s.nent.toNat = 0 := by rw [hnent]; rfl
  exact ⟨by omega, fun _ => ⟨by rw [hopc, hzero]; rfl, fun hpos => by omega⟩⟩

/-- A drawn record lies inside SRC, so neither OPC nor NENT wraps. -/
theorem State.CursorSound.drawn (hs : s.CursorSound) (hst : s.st = .run)
    (hfit : s.opc.toNat + 5 ≤ s.srcLen.toNat) (o : ObjFields) (wt ht : Nat) :
    (s.drawn o wt ht).CursorSound := by
  obtain ⟨-, hrun⟩ := hs
  obtain ⟨hopc, -⟩ := hrun hst
  have hlen := s.srcLen.isLt
  have hopc' : (s.opc + 5#32).toNat = s.opc.toNat + 5 := by
    rw [BitVec.toNat_add, BitVec.toNat_ofNat]
    omega
  have hnent' : (s.nent + 1#32).toNat = s.nent.toNat + 1 := by
    rw [BitVec.toNat_add, BitVec.toNat_ofNat]
    omega
  unfold State.CursorSound
  simp only [State.drawn_nent, State.drawn_opc, State.drawn_osrc, State.drawn_srcLen, hopc', hnent']
  omega

theorem UnitEffect.keeps_cursorSound (h : UnitEffect s t) (hs : s.CursorSound) : t.CursorSound := by
  cases h with
  | wait _ h => subst h; exact hs
  | draw hst hfit o wt ht _ _ _ h => subst h; exact hs.drawn hst hfit o wt ht
  | loadDone _ _ h | loadShort _ _ _ h | recordShort _ _ h | endList _ _ h
  | tileRange _ _ _ _ _ _ h => subst h; exact hs.of_not_run (by simp) rfl rfl
  | loadTile hst _ _ h => subst h; exact hs.of_not_run (by simp [hst]) rfl rfl

theorem MoveEffect.keeps_cursorSound {m : Move} (h : MoveEffect m s t) (hs : s.CursorSound) :
    t.CursorSound := by
  cases h with
  | read _ _ h | ignored _ _ _ h | changeSrc _ _ _ _ _ h | writeTsrc _ _ _ h | writeTlen _ _ _ h =>
    subst h; exact hs
  | writeOsrc _ _ hst h => subst h; exact hs.of_not_run (by simp [hst]) rfl rfl
  | tload _ _ h =>
    subst h
    rcases Nat.lt_or_ge s.tileCap s.tileCount with hcap | hcap
    · rw [State.tloadAccepted_of_lt hcap]; exact hs.of_not_run (by simp) rfl rfl
    · rw [State.tloadAccepted_of_le hcap]; exact hs.of_not_run (by simp) rfl rfl
  | illegalCmd _ _ _ _ _ h => subst h; exact hs.of_not_run (by simp) rfl rfl
  | run _ _ h | reset _ h => subst h; exact State.cursorSound_of_zero rfl rfl

/-! ## The frame of a busy command (R64, R65, R82, R134) -/

/-- A step of RUN writes canvas, cursor and STATUS, never the inputs of the composition. -/
theorem UnitEffect.frame_of_run (h : UnitEffect s t) (hst : s.st = .run) :
    t.tiles = s.tiles ∧ t.nt = s.nt ∧ t.tsrc = s.tsrc ∧ t.tlen = s.tlen ∧ t.osrc = s.osrc ∧
      t.src = s.src := by
  cases h with
  | loadDone hload | loadTile hload | loadShort hload => cases hst.symm.trans hload
  | wait _ h | recordShort _ _ h | endList _ _ h | tileRange _ _ _ _ _ _ h
  | draw _ _ _ _ _ _ _ _ h => subst h; exact ⟨rfl, rfl, rfl, rfl, rfl, rfl⟩

/-- A step of TLOAD writes the tile store and STATUS, never canvas or cursor. -/
theorem UnitEffect.frame_of_tload (h : UnitEffect s t) (hst : s.st = .tload) :
    t.canvas = s.canvas ∧ t.opc = s.opc ∧ t.nent = s.nent ∧ t.tsrc = s.tsrc ∧ t.tlen = s.tlen ∧
      t.osrc = s.osrc ∧ t.src = s.src := by
  cases h with
  | recordShort hrun | endList hrun | tileRange hrun | draw hrun => cases hst.symm.trans hrun
  | wait _ h | loadDone _ _ h | loadTile _ _ _ h | loadShort _ _ _ h =>
    subst h; exact ⟨rfl, rfl, rfl, rfl, rfl, rfl, rfl⟩

/-- Of the host's moves that are no reset, a busy unit answers the reads alone. -/
theorem MoveEffect.frame_of_busy {m : Move} (h : MoveEffect m s t) (hb : s.busy = true)
    (hreset : m ≠ .reset) : t = { s with replies := t.replies } := by
  have hidle : s.st ≠ .idle := fun hst => by simp [State.busy, hst] at hb
  cases h with
  | read _ r h => subst h; rfl
  | ignored n v _ h => subst h; rfl
  | changeSrc _ _ _ hfree => exact absurd (hfree.symm.trans hb) (by decide)
  | reset hm _ => exact absurd hm hreset
  | writeTsrc _ _ hst | writeTlen _ _ hst | writeOsrc _ _ hst | tload _ hst | run _ hst
  | illegalCmd _ _ _ _ hst => exact absurd hst hidle

/-- A step of the busy unit that is no reset is a step of the unit, or changes only script and replies. -/
theorem step_of_busy (h : step s = .next t) (hb : s.busy = true)
    (hreset : s.script.head? ≠ some (.move .reset)) :
    (∃ sc, UnitEffect { s with script := sc } t) ∨
      t = { s with script := t.script, replies := t.replies } := by
  obtain ⟨sc, -, hunit⟩ | ⟨rest, -, -, rfl⟩ | ⟨m, rest, hs, hmove⟩ := step_effect h
  · exact .inl ⟨sc, hunit⟩
  · exact .inr rfl
  · have hm : m ≠ .reset := fun hm => hreset (by rw [hs, hm]; rfl)
    rw [hmove.frame_of_busy hb hm]
    exact .inr rfl

end Machine

namespace Certificates

open Machine

/-- Settles O55: of the effects of a step those that write a memory are a stored tile, a drawn object, a
change of SRC inside SRC_LEN, and the clearings. -/
theorem stepKeepsMemoryForm : Obligations.StepKeepsMemoryForm := fun _ _ =>
  step_keeps (fun _ _ h => h) (fun _ _ => UnitEffect.keeps_memorySound)
    fun _ _ _ => MoveEffect.keeps_memorySound

/-- Settles O56: a drawn cell shows the object's own value, which is biased and lies on the object, or
what was there. -/
theorem stepKeepsCanvasColours : Obligations.StepKeepsCanvasColours := fun _ _ =>
  step_keeps (fun _ _ h => h) (fun _ _ => UnitEffect.keeps_canvasSound)
    fun _ _ _ => MoveEffect.keeps_canvasSound

/-- Settles O58: NT grows by a tile of the region that was read from inside SRC, or becomes 0. -/
theorem stepKeepsTileStoreBounds : Obligations.StepKeepsTileStoreBounds := fun _ _ =>
  step_keeps (fun _ _ h => h) (fun _ _ => UnitEffect.keeps_tilesSound)
    fun _ _ _ => MoveEffect.keeps_tilesSound

/-- Settles O59: OPC and NENT move together, by a record that lies inside SRC. -/
theorem stepKeepsTheCursor : Obligations.StepKeepsTheCursor := fun _ _ =>
  step_keeps (fun _ _ h => h) (fun _ _ => UnitEffect.keeps_cursorSound)
    fun _ _ _ => MoveEffect.keeps_cursorSound

/-- Settles O60: after reset the memories are empty, no tile is loaded and no record counted. -/
theorem resetStateIsSound : Obligations.ResetStateIsSound :=
  ⟨⟨Mem.wf_nil _, Mem.wf_nil _, Mem.wf_nil _, fun _ h => nomatch h⟩,
    State.canvasSound_of_cleared rfl, State.reset_statusSound,
    State.tilesSound_of_empty rfl rfl (fun hst => nomatch hst), State.cursorSound_of_zero rfl rfl⟩

/-- Settles O53: the unit's step keeps the inputs of the composition, and the host's moves but reset
change none of them while it is busy. -/
theorem runLeavesTheTileStore : Obligations.RunLeavesTheTileStore := by
  intro s t hst hreset hstep
  obtain ⟨sc, hunit⟩ | hframe := step_of_busy hstep (State.busy_eq_true.2 (.inr hst)) hreset
  · exact hunit.frame_of_run hst
  · rw [hframe]
    exact ⟨rfl, rfl, rfl, rfl, rfl, rfl⟩

/-- Settles O54: the unit's step keeps canvas and cursor, and the host's moves but reset change neither
while it is busy. -/
theorem tloadLeavesTheCanvas : Obligations.TloadLeavesTheCanvas := by
  intro s t hst hreset hstep
  obtain ⟨sc, hunit⟩ | hframe := step_of_busy hstep (State.busy_eq_true.2 (.inl hst)) hreset
  · exact hunit.frame_of_tload hst
  · rw [hframe]
    exact ⟨rfl, rfl, rfl, rfl, rfl, rfl, rfl⟩

/-- Settles O49: each row of the table that the unit raises is a fault entry on the state as it stands. -/
theorem faultsArePrecise : Obligations.FaultsArePrecise := by
  intro s t hb hscript hstep ht
  rw [step_of_no_turn hscript] at hstep
  have hst : s.st ≠ .fault := fun h => by simp [State.busy, h] at hb
  cases State.unitStep_fault hst hstep ht with
  | shortReadTile _ _ _ h | shortReadOam _ _ h | tileRange _ _ _ h => subst h; rfl

end Certificates
end Sys2Proof
end

section
/-! The tile decoder inverted and a whole TLOAD (40_tile_decode.md R63, R65, R66; 70_reset_and_hazards.md
R138): the unit with the first tiles of the region loaded, and the two ends of the loading. -/

namespace Sys2Proof
namespace Machine

variable {s t u : State} {k n : Nat}

/-! ## The tile decoder is a bijection (R63) -/

theorem tileDecode4bpp_getElem (b : TileBytes) {p : Nat} (hp : p < 64) :
    (tileDecode4bpp b)[p] = if p % 2 = 0 then lowNibble b[p / 2] else highNibble b[p / 2] := by
  simp only [tileDecode4bpp, Vector.getElem_ofFn]

theorem tileEncode4bpp_getElem (px : Tile) {i : Nat} (hi : i < 32) :
    (tileEncode4bpp px)[i] = nibblePair px[2 * i + 1] px[2 * i] := by
  simp only [tileEncode4bpp, Vector.getElem_ofFn]

theorem tileEncode4bpp_tileDecode4bpp (b : TileBytes) : tileEncode4bpp (tileDecode4bpp b) = b := by
  ext1 i hi
  have heven : 2 * i / 2 = i := by omega
  have hodd : (2 * i + 1) / 2 = i := by omega
  rw [tileEncode4bpp_getElem _ hi, tileDecode4bpp_getElem b (by omega), tileDecode4bpp_getElem b (by omega),
    if_neg (by omega), if_pos (by omega)]
  simp only [heven, hodd, nibblePair_highNibble_lowNibble]

theorem tileDecode4bpp_tileEncode4bpp (px : Tile) : tileDecode4bpp (tileEncode4bpp px) = px := by
  ext1 p hp
  rw [tileDecode4bpp_getElem _ hp, tileEncode4bpp_getElem px (by omega), lowNibble_nibblePair,
    highNibble_nibblePair]
  split
  case isTrue heven =>
    have hlow : 2 * (p / 2) = p := by omega
    simp only [hlow]
  case isFalse hodd =>
    have hhigh : 2 * (p / 2) + 1 = p := by omega
    simp only [hhigh]

/-! ## Further steps -/

/-- A further step after `k` steps. -/
theorem runSteps_then_step (h : runSteps k s = .next t) (h' : step t = .next u) :
    runSteps (k + 1) s = .next u := by
  rw [runSteps_add 1 h, runSteps_succ 0 h', runSteps_zero]

/-- A unit that waits after `k` steps is there after any more (log 7). -/
theorem runSteps_of_le_of_waiting {m : Nat} (hk : k ≤ m) (h : runSteps k s = .next t)
    (hs : t.script = []) (ht : t.st = .idle ∨ t.st = .fault) : runSteps m s = .next t := by
  obtain ⟨j, rfl⟩ := Nat.exists_eq_add_of_le hk
  rw [runSteps_add j h, runSteps_of_waiting j hs ht]

/-! ## The tile store while a region is loaded (R65) -/

/-- The first `n` tiles of the region, stored in order. -/
def State.loadedTiles (s : State) (n : Nat) : Mem Tile :=
  match n with
  | 0 => []
  | k + 1 => Mem.write blankTile (s.loadedTiles k) k (s.regionTile k)

theorem State.wf_loadedTiles (s : State) (n : Nat) : Mem.wf blankTile (s.loadedTiles n) := by
  induction n with
  | zero => exact Mem.wf_nil _
  | succ k ih => exact Mem.wf_write ih _ _

theorem State.read_loadedTiles (s : State) (h : k < n) :
    Mem.read blankTile (s.loadedTiles n) k = s.regionTile k := by
  induction n with
  | zero => omega
  | succ m ih =>
    rw [State.loadedTiles, Mem.read_write (s.wf_loadedTiles m).1]
    split
    case isTrue heq => rw [heq]
    case isFalse hne => exact ih (by omega)

/-- The unit in TLOAD with the first `n` tiles of the region of `s` loaded. -/
def State.loading (s : State) (n : Nat) : State :=
  { s with st := .tload, tiles := s.loadedTiles n, nt := BitVec.ofNat 32 n }

/-- What a whole TLOAD leaves in IDLE, or short of SRC before the fault entry: `n` tiles loaded. -/
def State.withLoaded (s : State) (n : Nat) : State :=
  { s with tiles := s.loadedTiles n, nt := BitVec.ofNat 32 n }

theorem State.withLoaded_tilePixel (s : State) (h : k < n) (p : Nat) :
    (s.withLoaded n).tilePixel k p = (s.regionTile k)[p]?.getD 0#4 := by
  rw [State.tilePixel, State.withLoaded, s.read_loadedTiles h]

theorem State.tloadAccepted_eq_loading (hcap : s.tileCount ≤ s.tileCap) :
    s.tloadAccepted = s.loading 0 := State.tloadAccepted_of_le hcap

/-- A count of tiles within the region fits NT. -/
theorem State.loading_nt (h : n ≤ s.tileCount) : (s.loading n).nt.toNat = n := by
  have := s.tlen.isLt
  unfold State.tileCount at h
  exact Nat.mod_eq_of_lt (by omega)

theorem State.loading_tileAddress (h : n ≤ s.tileCount) :
    (s.loading n).tileAddress = s.tsrc.toNat + 32 * n := by
  rw [State.tileAddress, State.loading_nt h]
  rfl

/-! ## The steps of a whole TLOAD (R66) -/

theorem step_loading_eq_tileStep (hs : s.script = []) (n : Nat) :
    step (s.loading n) = .next (s.loading n).tileStep := step_of_tload hs rfl

/-- One more tile of the region, while whole tiles are left inside SRC. -/
theorem step_loading (hs : s.script = []) (hcount : n < s.tileCount) (hfit : n < s.tilesThatFit) :
    step (s.loading n) = .next (s.loading (n + 1)) := by
  have hnt := State.loading_nt hcount.le
  have hread : (s.loading n).tileAddress + 32 ≤ s.srcLen.toNat := by
    unfold State.tilesThatFit at hfit
    rw [State.loading_tileAddress hcount.le]
    omega
  rw [step_loading_eq_tileStep hs, State.tileStep_of_le (hnt.trans_ne hcount.ne) hread,
    State.storeTile, hnt, State.loading, State.loading, BitVec.ofNat_add]
  rfl

theorem runSteps_loading (hs : s.script = []) (hcount : n ≤ s.tileCount) (hfit : n ≤ s.tilesThatFit) :
    runSteps n (s.loading 0) = .next (s.loading n) := by
  induction n with
  | zero => rfl
  | succ k ih => exact runSteps_then_step (ih (by omega) (by omega)) (step_loading hs hcount hfit)

/-- The region is loaded: back to IDLE. -/
theorem step_loading_done (hst : s.st = .idle) (hs : s.script = []) :
    step (s.loading s.tileCount) = .next (s.withLoaded s.tileCount) := by
  rw [step_loading_eq_tileStep hs, State.tileStep_of_done (State.loading_nt le_rfl), State.withLoaded, ← hst]
  rfl

/-- SRC ends before the region does: the short read (R65). -/
theorem step_loading_short (hs : s.script = []) (hshort : s.tilesThatFit < s.tileCount) :
    step (s.loading s.tilesThatFit) =
      .next (Certificates.faulted (s.withLoaded s.tilesThatFit) .shortReadTile .tload
        (BitVec.ofNat 32 (s.tsrc.toNat + 32 * s.tilesThatFit))) := by
  have haddr := State.loading_tileAddress hshort.le
  have hread : s.srcLen.toNat < (s.loading s.tilesThatFit).tileAddress + 32 := by
    rw [haddr, State.tilesThatFit]
    omega
  rw [step_loading_eq_tileStep hs,
    State.tileStep_of_lt ((State.loading_nt hshort.le).trans_ne hshort.ne) hread,
    State.raise_of_tload rfl, haddr]
  rfl

theorem runSteps_tloadAccepted_of_le (hst : s.st = .idle) (hs : s.script = [])
    (hcap : s.tileCount ≤ s.tileCap) (hfit : s.tileCount ≤ s.tilesThatFit) :
    runSteps (s.tileCount + 1) s.tloadAccepted = .next (s.withLoaded s.tileCount) := by
  rw [State.tloadAccepted_eq_loading hcap]
  exact runSteps_then_step (runSteps_loading hs le_rfl hfit) (step_loading_done hst hs)

theorem runSteps_tloadAccepted_of_short (hs : s.script = []) (hcap : s.tileCount ≤ s.tileCap)
    (hshort : s.tilesThatFit < s.tileCount) :
    runSteps (s.tilesThatFit + 1) s.tloadAccepted =
      .next (Certificates.faulted (s.withLoaded s.tilesThatFit) .shortReadTile .tload
        (BitVec.ofNat 32 (s.tsrc.toNat + 32 * s.tilesThatFit))) := by
  rw [State.tloadAccepted_eq_loading hcap]
  exact runSteps_then_step (runSteps_loading hs hshort.le le_rfl) (step_loading_short hs hshort)

end Machine

namespace Certificates

open Machine

/-- Settles O11: byte `i` is the pair of the nibbles that are the pixels `2i + 1` and `2i`. -/
theorem tileDecodeIsBijective : Obligations.TileDecodeIsBijective :=
  ⟨tileEncode4bpp_tileDecode4bpp, tileDecode4bpp_tileEncode4bpp⟩

/-- Settles O14, by induction on the tiles loaded, and the step that ends the loading. -/
theorem tloadLoadsTheRegion : Obligations.TloadLoadsTheRegion := fun s hst hs hcap hfit =>
  ⟨s.withLoaded s.tileCount, State.command_of_idle hst _,
    runSteps_tloadAccepted_of_le hst hs hcap hfit, rfl, fun _ hn p _ => s.withLoaded_tilePixel hn p⟩

/-- Settles O15, by induction on the tiles loaded, and the step that meets the end of SRC. -/
theorem tloadShortReadKeepsWholeTiles : Obligations.TloadShortReadKeepsWholeTiles :=
  fun s hst hs hcap hshort =>
    ⟨_, State.command_of_idle hst _, runSteps_tloadAccepted_of_short hs hcap hshort, rfl,
      fun _ hn p _ => s.withLoaded_tilePixel hn p⟩

/-- Settles O37: a region larger than the store faults at once, any other is loaded or cut short within
the bound, and then the unit waits. -/
theorem tloadAlwaysEnds : Obligations.TloadAlwaysEnds := by
  intro s hst hs
  rcases Nat.lt_or_ge s.tileCap s.tileCount with hcap | hcap
  · rw [State.tloadAccepted_of_lt hcap]
    exact ⟨_, runSteps_of_waiting _ hs (.inr rfl), .inr rfl⟩
  rcases Nat.lt_or_ge s.tilesThatFit s.tileCount with hshort | hfit
  · exact ⟨_, runSteps_of_le_of_waiting (Nat.succ_le_succ hshort.le)
      (runSteps_tloadAccepted_of_short hs hcap hshort) hs (.inr rfl), .inr rfl⟩
  · exact ⟨_, runSteps_tloadAccepted_of_le hst hs hcap hfit, .inl hst⟩

end Certificates
end Sys2Proof
end

section
/-! The step of RUN and a whole RUN (42_sprite_compositor.md R96, R98; 70_reset_and_hazards.md R134, R138): the
turns by which the unit takes a record, the unit with the first records of the list drawn, its ends, the
bound on its steps, and the inputs its result depends on. -/

namespace Sys2Proof
namespace Machine

open Certificates

variable {s t : State} {j k n : Nat}

/-! ## The turn of the unit in RUN (R70, logs 6, 8) -/

theorem State.unitStep_of_run (hst : s.st = .run) : s.unitStep = s.recordStep := by
  rw [State.unitStep, hst]

/-- The turn the unit takes off the script before it acts: none left to take, its own, or none while the
host awaits. -/
theorem step_of_run_of_turn {taken : List Turn} (hst : s.st = .run)
    (hturn : (s.script = [] ∧ taken = []) ∨ s.script = .unit :: taken ∨
      (s.script = taken ∧ taken.head? = some .await)) :
    step s = { s with script := taken }.recordStep := by
  rcases hturn with ⟨hs, rfl⟩ | hs | ⟨rfl, hawait⟩
  · rw [step_of_run hs hst, ← hs]
  · rw [step, State.takeTurn, hs]
    exact State.unitStep_of_run (s := { s with script := taken }) hst
  · obtain ⟨rest, hs⟩ := List.head?_eq_some_iff.1 hawait
    show step s = s.recordStep
    rw [step, State.takeTurn, hs]
    exact (if_pos (State.busy_eq_true.2 (.inr hst))).trans (State.unitStep_of_run hst)

/-- The record step by what its fetch answers (R70). -/
theorem State.recordStep_of_memRead {r : Record} (h : s.memRead s.opc.toNat 5 = some r) :
    s.recordStep = exec (decodeRecord r) s := by
  rw [State.recordStep, h]

/-- The short read of a record, as the statements write it. -/
theorem State.recordStep_of_lt_eq_faulted (hst : s.st = .run) (h : s.srcLen.toNat < s.opc.toNat + 5) :
    s.recordStep = .next (faulted s .shortReadOam .run s.opc) := by
  rw [State.recordStep_of_lt h, State.raise_of_run hst (by decide)]

/-- A record is refused outside RUN alone (log 11). -/
theorem execObj_of_not_run (hst : s.st ≠ .run) (shape : Nat × Nat) (o : ObjFields) :
    execObj shape o s = .refused .recordOutsideRun := if_neg hst

theorem execEndList_of_not_run (hst : s.st ≠ .run) :
    execEndList s = .refused .recordOutsideRun := if_neg hst

/-! ## The records of the list in order (R98) -/

/-- The unit in RUN with the first `n` records of the list of `s` drawn. -/
def State.compositing (s : State) (n : Nat) : State :=
  { s with
    st := .run
    canvas := s.listCanvas n
    opc := BitVec.ofNat 32 (s.osrc.toNat + 5 * n)
    nent := BitVec.ofNat 32 n }

theorem State.runAccepted_eq_compositing (s : State) : s.runAccepted = s.compositing 0 := by
  rw [State.compositing, Nat.mul_zero, Nat.add_zero, BitVec.ofNat_toNat, BitVec.setWidth_eq]
  rfl

theorem State.recordRuns.fits (h : s.recordRuns j) : s.osrc.toNat + 5 * j + 5 ≤ s.srcLen.toNat := by
  obtain ⟨r, hr, -⟩ := h
  exact (State.memRead_eq_some.1 hr).1

/-- The address of record `n` fits OPC, since the record before it lies inside SRC. -/
theorem State.compositing_opc (h : ∀ j < n, s.recordRuns j) :
    (s.compositing n).opc.toNat = s.osrc.toNat + 5 * n := by
  refine Nat.mod_eq_of_lt ?_
  have hlen := s.srcLen.isLt
  have hosrc := s.osrc.isLt
  cases n with
  | zero => exact hosrc
  | succ j =>
    have := (h j (Nat.lt_succ_self j)).fits
    omega

/-- What the unit fetches after `n` records is record `n` of the list. -/
theorem State.memRead_compositing (h : ∀ j < n, s.recordRuns j) :
    (s.compositing n).memRead (s.compositing n).opc.toNat 5 = s.listRecord n := by
  rw [State.compositing_opc h]
  rfl

theorem step_compositing_eq_recordStep (hs : s.script = []) (n : Nat) :
    step (s.compositing n) = (s.compositing n).recordStep := step_of_run hs rfl

/-- After `n` records the unit executes record `n`, or meets the end of SRC. -/
theorem step_compositing (hs : s.script = []) (h : ∀ j < n, s.recordRuns j) {r : Record}
    (hr : s.listRecord n = some r) :
    step (s.compositing n) = exec (decodeRecord r) (s.compositing n) := by
  rw [← State.memRead_compositing h] at hr
  exact (step_compositing_eq_recordStep hs n).trans (State.recordStep_of_memRead hr)

/-- A record that runs is drawn over the records before it. -/
theorem step_compositing_of_recordRuns (hs : s.script = []) (h : ∀ j < n, s.recordRuns j)
    (hn : s.recordRuns n) : step (s.compositing n) = .next (s.compositing (n + 1)) := by
  obtain ⟨r, hr, hne, hm⟩ := hn
  have hdrawn : exec (decodeRecord r) (s.compositing n) =
      .next ((s.compositing n).drawn (objFields r) (recordShape r).1 (recordShape r).2) :=
    exec_decodeRecord_of_not_missing rfl hne hm
  have hcanvas : s.listCanvas (n + 1) = ((s.compositing n).drawn (objFields r)
      (recordShape r).1 (recordShape r).2).canvas := by
    rw [State.listCanvas, hr]
    rfl
  have hopc : BitVec.ofNat 32 (s.osrc.toNat + 5 * (n + 1)) =
      BitVec.ofNat 32 (s.osrc.toNat + 5 * n) + 5#32 := BitVec.ofNat_add _ 5
  have hnent : BitVec.ofNat 32 (n + 1) = BitVec.ofNat 32 n + 1#32 := BitVec.ofNat_add n 1
  refine ((step_compositing hs h hr).trans hdrawn).trans (congrArg Host.Outcome.next ?_)
  show _ = { s with
    st := .run
    canvas := s.listCanvas (n + 1)
    opc := BitVec.ofNat 32 (s.osrc.toNat + 5 * (n + 1))
    nent := BitVec.ofNat 32 (n + 1) }
  rw [hcanvas, hopc, hnent]
  rfl

theorem runSteps_runAccepted (hs : s.script = []) (h : ∀ j < n, s.recordRuns j) :
    runSteps n s.runAccepted = .next (s.compositing n) := by
  induction n with
  | zero => rw [s.runAccepted_eq_compositing, runSteps_zero]
  | succ m ih =>
    have hbefore : ∀ j < m, s.recordRuns j := fun j hj => h j (hj.trans (Nat.lt_succ_self m))
    exact runSteps_then_step (ih hbefore)
      (step_compositing_of_recordRuns hs hbefore (h m (Nat.lt_succ_self m)))

/-- RUN ends at END, in IDLE past its five bytes (R97). -/
theorem step_compositing_of_end (hst : s.st = .idle) (hs : s.script = [])
    (h : ∀ j < n, s.recordRuns j) {r : Record} (hr : s.listRecord n = some r) (hend : r[0] = 0xFF#8) :
    step (s.compositing n) = .next { s with
      canvas := s.listCanvas n
      opc := BitVec.ofNat 32 (s.osrc.toNat + 5 * n + 5)
      nent := BitVec.ofNat 32 n } := by
  rw [step_compositing hs h hr, exec_decodeRecord_of_eq hend, execEndList_of_run rfl, BitVec.ofNat_add,
    ← hst]
  rfl

/-- RUN ends at a record that does not fit in SRC (R70). -/
theorem step_compositing_of_none (hs : s.script = []) (h : ∀ j < n, s.recordRuns j)
    (hr : s.listRecord n = none) :
    step (s.compositing n) =
      .next (faulted (s.compositing n) .shortReadOam .run (s.compositing n).opc) := by
  rw [← State.memRead_compositing h, State.memRead_eq_none] at hr
  exact (step_compositing_eq_recordStep hs n).trans
    (State.recordStep_of_lt_eq_faulted rfl hr)

/-- RUN ends at an object with a tile missing (R86). -/
theorem step_compositing_of_missing (hs : s.script = []) (h : ∀ j < n, s.recordRuns j) {r : Record}
    (hr : s.listRecord n = some r) (hne : r[0] ≠ 0xFF#8)
    (hm : s.tilesMissing (objFields r) (recordShape r).1 (recordShape r).2) :
    step (s.compositing n) =
      .next (faulted (s.compositing n) .tileRange .run (s.compositing n).opc) :=
  (step_compositing hs h hr).trans (exec_decodeRecord_of_tilesMissingAt rfl ⟨hne, hm⟩)

/-! ## The bound on the steps of RUN (R98, R138) -/

/-- The unit in RUN always has a next state (R96). -/
theorem State.exists_recordStep (hst : s.st = .run) : ∃ t, s.recordStep = .next t := by
  rcases Nat.lt_or_ge s.srcLen.toNat (s.opc.toNat + 5) with hshort | hfit
  · exact ⟨_, State.recordStep_of_lt hshort⟩
  rw [State.recordStep_of_le hfit]
  by_cases hend : (recordFrom s s.opc.toNat)[0] = Config.endMark
  · exact ⟨_, (exec_decodeRecord_of_eq hend s).trans (execEndList_of_run hst)⟩
  by_cases hm : TilesMissingAt s (recordFrom s s.opc.toNat)
  · exact ⟨_, exec_decodeRecord_of_tilesMissingAt hst hm⟩
  · exact ⟨_, exec_decodeRecord_of_not_missing hst hend fun hmissing => hm ⟨hend, hmissing⟩⟩

/-- A step of RUN ends it, or moves the cursor over five bytes of SRC; the turns left stay. -/
theorem State.recordStep_ends_or_advances (hst : s.st = .run) (h : s.recordStep = .next t) :
    t.script = s.script ∧ ((t.st = .idle ∨ t.st = .fault) ∨
      t.st = .run ∧ t.srcLen = s.srcLen ∧ s.opc.toNat + 5 ≤ s.srcLen.toNat ∧
        t.opc.toNat = s.opc.toNat + 5) := by
  cases State.recordStep_effect hst h with
  | wait hb => simp [State.busy, hst] at hb
  | loadDone hload | loadTile hload | loadShort hload => cases hst.symm.trans hload
  | recordShort _ _ h | tileRange _ _ _ _ _ _ h => subst h; exact ⟨rfl, .inl (.inr rfl)⟩
  | endList _ _ h => subst h; exact ⟨rfl, .inl (.inl rfl)⟩
  | draw _ hfit o wt ht _ _ _ h =>
    subst h
    refine ⟨rfl, .inr ⟨hst, rfl, hfit, ?_⟩⟩
    have := s.srcLen.isLt
    rw [State.drawn_opc, BitVec.toNat_add, BitVec.toNat_ofNat]
    omega

/-- With `k` further records of five bytes at most between OPC and the end of SRC, RUN ends within
`k + 1` steps. -/
theorem runSteps_of_run_ends (hat : AtRecord s) (hk : (s.srcLen.toNat - s.opc.toNat) / 5 ≤ k) :
    ∃ t, runSteps (k + 1) s = .next t ∧ (t.st = .idle ∨ t.st = .fault) := by
  induction k generalizing s with
  | zero =>
    obtain ⟨hst, hs⟩ := hat
    obtain ⟨t, ht⟩ := State.exists_recordStep hst
    obtain ⟨-, hend | ⟨-, -, hfit, -⟩⟩ := State.recordStep_ends_or_advances hst ht
    · exact ⟨t, runSteps_succ 0 ((step_of_run hs hst).trans ht), hend⟩
    · omega
  | succ k ih =>
    obtain ⟨hst, hs⟩ := hat
    obtain ⟨t, ht⟩ := State.exists_recordStep hst
    rw [runSteps_succ _ ((step_of_run hs hst).trans ht)]
    obtain ⟨hscript, hend | ⟨hrun, hlen, hfit, hopc⟩⟩ := State.recordStep_ends_or_advances hst ht
    · exact ⟨t, runSteps_of_waiting _ (hscript.trans hs) hend, hend⟩
    · exact ih ⟨hrun, hscript.trans hs⟩ (by rw [hlen, hopc]; omega)

/-! ## What the result of RUN depends on (R134) -/

/-- `s` with everything of `u` that RUN does not read: the fault record, TSRC, TLEN, TILE_CAP and what the
host has read. -/
def State.withUnread (s u : State) : State :=
  { s with
    cause := u.cause, fop := u.fop, faddr := u.faddr, tsrc := u.tsrc, tlen := u.tlen,
    tileCap := u.tileCap, replies := u.replies }

/-- Where `s` has faulted, its fault record is that of `u`. -/
def SameFaultRecord (s u : State) : Prop :=
  s.st = .fault → s.cause = u.cause ∧ s.fop = u.fop ∧ s.faddr = u.faddr

theorem State.withUnread_drawn (s u : State) (o : ObjFields) (wt ht : Nat) :
    (s.withUnread u).drawn o wt ht = (s.drawn o wt ht).withUnread u := rfl

/-- A record step on the same inputs gives the same result. -/
theorem State.recordStep_withUnread (hst : s.st = .run) (u : State) :
    ∃ t v, s.recordStep = .next t ∧ (s.withUnread u).recordStep = .next (t.withUnread v) ∧
      t.script = s.script ∧ t.st ≠ .tload ∧ SameFaultRecord t v := by
  have hst' : (s.withUnread u).st = .run := hst
  rcases Nat.lt_or_ge s.srcLen.toNat (s.opc.toNat + 5) with hshort | hfit
  · exact ⟨_, (s.withUnread u).raise .shortReadOam s.opc, State.recordStep_of_lt hshort,
      State.recordStep_of_lt (s := s.withUnread u) hshort, rfl, by simp, fun _ => ⟨rfl, rfl, rfl⟩⟩
  rw [State.recordStep_of_le hfit, State.recordStep_of_le (s := s.withUnread u) hfit]
  by_cases hend : (recordFrom s s.opc.toNat)[0] = Config.endMark
  · exact ⟨_, u, (exec_decodeRecord_of_eq hend _).trans (execEndList_of_run hst),
      (exec_decodeRecord_of_eq hend _).trans (execEndList_of_run hst'), rfl, by simp,
      fun hfault => nomatch hfault⟩
  by_cases hm : TilesMissingAt s (recordFrom s s.opc.toNat)
  · exact ⟨_, faulted (s.withUnread u) .tileRange .run s.opc, exec_decodeRecord_of_tilesMissingAt hst hm,
      exec_decodeRecord_of_tilesMissingAt hst' hm, rfl, by simp [faulted], fun _ => ⟨rfl, rfl, rfl⟩⟩
  · have hloaded := fun hmissing => hm ⟨hend, hmissing⟩
    refine ⟨_, u, exec_decodeRecord_of_not_missing hst hend hloaded, ?_, rfl, by simp [hst],
      fun hfault => nomatch hst.symm.trans hfault⟩
    rw [← State.withUnread_drawn]
    exact exec_decodeRecord_of_not_missing hst' hend hloaded

theorem runSteps_withUnread (k : Nat) {u : State} (hs : s.script = []) (hst : s.st ≠ .tload)
    (hfault : SameFaultRecord s u) :
    AgreeOnRunResults (runSteps k s) (runSteps k (s.withUnread u)) := by
  induction k generalizing s u with
  | zero => exact ⟨rfl, rfl, rfl, rfl, hfault⟩
  | succ k ih =>
    have hwaiting (hwait : s.st = .idle ∨ s.st = .fault) :
        AgreeOnRunResults (runSteps (k + 1) s) (runSteps (k + 1) (s.withUnread u)) := by
      rw [runSteps_of_waiting _ hs hwait, runSteps_of_waiting (s := s.withUnread u) _ hs hwait]
      exact ⟨rfl, rfl, rfl, rfl, hfault⟩
    cases hcase : s.st with
    | idle => exact hwaiting (.inl hcase)
    | fault => exact hwaiting (.inr hcase)
    | tload => exact absurd hcase hst
    | run =>
      obtain ⟨t, v, ht, hv, hscript, hst', hfault'⟩ := State.recordStep_withUnread hcase u
      rw [runSteps_succ k ((step_of_run hs hcase).trans ht),
        runSteps_succ k ((step_of_run (s := s.withUnread u) hs hcase).trans hv)]
      exact ih (hscript.trans hs) hst' hfault'

/-- Acceptance of RUN overwrites canvas and cursor, so units with the same inputs differ in what RUN does
not read alone. -/
theorem State.runAccepted_eq_withUnread (hinputs : SameRunInputs s t) (hs : s.script = [])
    (ht : t.script = []) : t.runAccepted = s.runAccepted.withUnread t := by
  obtain ⟨htiles, hnt, hosrc, hsrc, hlen⟩ := hinputs
  simp only [State.runAccepted, State.withUnread, htiles, hnt, hosrc, hsrc, hlen, hs, ht]

end Machine

namespace Certificates

open Machine

/-- Settles O27: outside RUN every form of a record is refused. -/
theorem recordOutsideRunIsRefused : Obligations.RecordOutsideRunIsRefused := by
  intro i s ⟨hload, hrun⟩ hst
  cases i with
  | tload => exact absurd rfl hload
  | run => exact absurd rfl hrun
  | endList => exact execEndList_of_not_run hst
  | objSq0 | objSq1 | objSq2 | objSq3 | objWd0 | objWd1 | objWd2 | objWd3 | objTl0 | objTl1 | objTl2
  | objTl3 | objNull => exact execObj_of_not_run hst _ _

/-- Settles O28: each of the three turns leads to the record step, which does not read the turns left. -/
theorem stepRunsTheDecodedRecord : Obligations.StepRunsTheDecodedRecord := by
  intro s hst taken hturn
  rw [step_of_run_of_turn hst hturn]
  exact ⟨fun hfit => State.recordStep_of_le (s := { s with script := taken }) hfit,
    fun hshort => State.recordStep_of_lt_eq_faulted (s := { s with script := taken }) hst hshort⟩

/-- Settles O34, by induction on the records drawn, and the step that meets END. -/
theorem runCompositesTheList : Obligations.RunCompositesTheList := fun _ _ _ hst hs h hr hend =>
  ⟨State.command_of_idle hst _,
    runSteps_then_step (runSteps_runAccepted hs h) (step_compositing_of_end hst hs h hr hend)⟩

/-- Settles O35, by induction on the records drawn, and the step that meets the bad record. -/
theorem runFaultsAtTheFirstBadRecord : Obligations.RunFaultsAtTheFirstBadRecord := fun _ _ _ hs h =>
  ⟨fun hr => runSteps_then_step (runSteps_runAccepted hs h) (step_compositing_of_none hs h hr),
    fun _ hr hne hm =>
      runSteps_then_step (runSteps_runAccepted hs h) (step_compositing_of_missing hs h hr hne hm)⟩

/-- Settles O36, by induction on the records that fit between OPC and the end of SRC. -/
theorem runAlwaysEnds : Obligations.RunAlwaysEnds := fun _ hat => runSteps_of_run_ends hat le_rfl

/-- Settles O38: the two accepted states differ in what RUN does not read alone, and every step of RUN
keeps it so. -/
theorem runDependsOnItsInputsOnly : Obligations.RunDependsOnItsInputsOnly := by
  intro s t k _ _ hs ht hinputs
  rw [State.runAccepted_eq_withUnread hinputs hs ht]
  exact runSteps_withUnread k hs (by simp) fun hfault => nomatch hfault

end Certificates
end Sys2Proof
end

section
/-! The host beside the busy unit, its change of SRC, and an instruction it has placed (43_host_commands.md
R103, R110; 20_memory.md R43; 41_oam_entry.md R70; log 22). -/

namespace Sys2Proof
namespace Machine

open Certificates

variable {s t : State}

/-! ## The moves refused while the unit is busy (R110) -/

/-- Every move but a STATUS read and reset is refused, for its number or its range where that is looked
at first (log 9). -/
theorem State.hostMove_of_busy (hb : s.busy = true) {m : Move} (hstatus : m ≠ .readReg 1)
    (hreset : m ≠ .reset) : ∃ r, s.hostMove m = .refused r := by
  cases m with
  | readReg n =>
    rcases Nat.lt_or_ge n 9 with hn | hn
    · obtain ⟨r, hr⟩ := exists_regOfNumber_of_le_eight (Nat.le_of_lt_succ hn)
      exact ⟨_, State.hostReadReg_of_busy hr (fun h => hstatus (congrArg _ h)) hb⟩
    · exact ⟨_, State.hostReadReg_of_nine_le hn⟩
  | writeReg n v =>
    rcases Nat.lt_or_ge n 9 with hn | hn
    · exact ⟨_, State.hostWriteReg_of_busy (Nat.le_of_lt_succ hn) (State.busy_eq_true.1 hb)⟩
    · exact ⟨_, State.hostWriteReg_of_nine_le hn⟩
  | readTile | readCanvas | changeSrc => exact ⟨_, State.unlessBusy_of_busy hb _⟩
  | reset => exact absurd rfl hreset

/-! ## The change of SRC (R43, log 10) -/

section
variable {a : Nat} {bytes : List Byte}

theorem State.hostChangeSrc_of_lt (hb : s.busy = false) (h : s.srcLen.toNat < a + bytes.length) :
    s.hostChangeSrc a bytes = .refused (.srcRange a) :=
  (State.unlessBusy_of_not_busy hb _).trans (if_neg (not_le.2 h))

theorem State.hostChangeSrc_of_le (hb : s.busy = false) (h : a + bytes.length ≤ s.srcLen.toNat) :
    s.hostChangeSrc a bytes = .next { s with src := Mem.writeBytes s.src a bytes } :=
  (State.unlessBusy_of_not_busy hb _).trans (if_pos h)

/-- Inside the run of bytes SRC reads as the run. -/
theorem Memory.read_writeBytes_inside {m : Memory} (hwf : Memory.wf m) {k : Nat} (hlo : a ≤ k)
    (hhi : k < a + bytes.length) :
    some (Mem.read 0#8 (Mem.writeBytes m a bytes) k) = bytes[k - a]? := by
  have hk : k - a < bytes.length := by omega
  rw [Memory.read_writeBytes hwf, if_pos ⟨hlo, hhi⟩, List.getD_eq_getElem _ _ hk,
    List.getElem?_eq_getElem hk]

/-- Outside the run of bytes SRC is unchanged. -/
theorem Memory.read_writeBytes_outside {m : Memory} (hwf : Memory.wf m) {k : Nat}
    (h : k < a ∨ a + bytes.length ≤ k) :
    Mem.read 0#8 (Mem.writeBytes m a bytes) k = Mem.read 0#8 m k := by
  rw [Memory.read_writeBytes hwf, if_neg (by omega)]

end

/-! ## A placed instruction (log 22) -/

/-- A placed record lies inside SRC, which is as long as the record needs. -/
theorem State.placeRecord_fits (s : State) (r : Record) (h : s.opc.toNat + 5 < 2 ^ 32) :
    s.opc.toNat + 5 ≤ (s.placeRecord r).srcLen.toNat := by
  rw [State.placeRecord_srcLen]
  split
  case isTrue hfit => exact hfit
  case isFalse =>
    rw [BitVec.toNat_add, BitVec.toNat_ofNat]
    omega

/-- The five bytes at OPC are the record that was placed there. -/
theorem State.recordFrom_placeRecord (hwf : Memory.wf s.src) (r : Record) :
    recordFrom (s.placeRecord r) s.opc.toNat = r := by
  ext1 i hi
  have hbyte := Memory.read_writeBytes_inside (bytes := r.toList) hwf (Nat.le_add_right s.opc.toNat i)
    (by simpa using hi)
  rw [Nat.add_sub_cancel_left, Vector.getElem?_toList, Vector.getElem?_eq_getElem hi,
    Option.some.injEq] at hbyte
  rw [recordFrom, Vector.getElem_ofFn]
  exact hbyte

theorem step_placeRecord (hwf : Memory.wf s.src) (r : Record) (h : s.opc.toNat + 5 < 2 ^ 32) :
    step (s.placeRecord r) = exec (decodeRecord r) { s.placeRecord r with script := s.script } := by
  rw [step_of_run_of_turn (taken := s.script) rfl (.inr (.inl rfl))]
  refine (State.recordStep_of_le (s := { s.placeRecord r with script := s.script })
    (s.placeRecord_fits r h)).trans ?_
  exact congrArg (fun r' => exec (decodeRecord r') _) (State.recordFrom_placeRecord hwf r)

theorem step_placeCommand {c : Word} {i : Instr} (hc : decodeCommand c = .ok i) (s : State) :
    step (s.placeCommand c) = exec i { s.placeCommand c with script := s.script } := by
  rw [step_of_move (s := s.placeCommand c) rfl, State.hostMove, State.hostWriteReg_cmd rfl,
    State.dispatchCommand, hc]

theorem exists_encoding_of_decodeTableWord {nbits w : Nat} {i : Instr}
    (h : decodeTableWord nbits w = some i) :
    ∃ e, tableEncoding nbits w = some e ∧ decode e = .ok i := by
  unfold decodeTableWord at h
  split at h
  · cases h
  · split at h
    · cases h
      exact ⟨_, ‹_›, ‹_›⟩
    · cases h

/-- A table word of 32 bits is a command value (log 23). -/
theorem nbits_ne_of_tableEncoding_eq_oam5 {nbits w : Nat} {r : Record}
    (h : tableEncoding nbits w = some (.oam5 r)) : nbits ≠ 32 := by
  rintro rfl
  cases h

end Machine

namespace Certificates

open Machine

/-- Settles O45: a STATUS read is answered in every state, and the busy unit refuses every other move but
reset. -/
theorem busyUnitRefusesTheHost : Obligations.BusyUnitRefusesTheHost := by
  intro s m rest hs hb
  rw [step_of_move hs]
  refine ⟨fun hm => ?_, State.hostMove_of_busy (s := { s with script := rest }) hb⟩
  subst hm
  exact ⟨_, rfl, rfl⟩

/-- Settles O44: the run of bytes is written where it lies inside SRC, and read back byte by byte. -/
theorem hostChangesSource : Obligations.HostChangesSource := by
  intro s a bytes rest hs hwf
  rw [step_of_move hs]
  exact ⟨fun hb => State.unlessBusy_of_busy hb _,
    fun hb hbeyond => State.hostChangeSrc_of_lt (s := { s with script := rest }) hb hbeyond,
    fun hb hfit => ⟨_, State.hostChangeSrc_of_le (s := { s with script := rest }) hb hfit, rfl,
      fun _ hlo hhi => Memory.read_writeBytes_inside hwf hlo hhi,
      fun _ hout => Memory.read_writeBytes_outside hwf hout⟩⟩

/-- Settles O40: the unit fetches the record it finds at OPC, the host's next move writes the command. -/
theorem placedWordRunsNext : Obligations.PlacedWordRunsNext := by
  intro s nbits w i hi hwf hroom
  obtain ⟨e, hword, hdecode⟩ := exists_encoding_of_decodeTableWord hi
  rw [State.withFetchWord, hword]
  cases e with
  | oam5 r =>
    cases hdecode
    exact step_placeRecord hwf r (hroom (nbits_ne_of_tableEncoding_eq_oam5 hword))
  | cmd c => exact step_placeCommand hdecode s

end Certificates
end Sys2Proof
end
